-- ==== Sys2Proof/Word.lean ====
section
/-! DEFINITION. The words of the engine: what the spec treats as bits, and their plainest arithmetic (R10, R11, R12). -/

namespace Sys2Proof

/-- A 64-bit unsigned word with wraparound: a state word, a key word, a data word, a digest (R10, R12). -/
abbrev Word := BitVec 64

/-- One input byte (R51). -/
abbrev Byte := BitVec 8

/-- A command word `CW`, 136 bits, bit 0 the least significant (R70, R11). -/
abbrev CommandWord := BitVec 136

/-- `add64(a, b) = (a + b) mod 2^64`; the carry out of bit 63 is discarded (R12, R103). -/
def add64 (a b : Word) : Word := a + b

/-- `xor64(a, b)`, bit by bit (R12, R103). -/
def xor64 (a b : Word) : Word := a ^^^ b

end Sys2Proof
end

