-- ==== Sys2Proof/Syntax.lean ====
section
/-! DEFINITION. The commands of the engine: one constructor per row of spec/opcode_table.json (R71). -/

namespace Sys2Proof

/-- A host command with the operands its rule uses (R71, R72, R73).
The don't-care data words of R73 are no operands; the lanes of `d0` that a FEED ignores are kept, because they are bits of
the data word it names. -/
inductive Instr where
  /-- `INIT k0, k1`: construct a hasher (R132). -/
  | init (k0 k1 : Word)
  /-- `FEED n, d0`: one beat of `n` bytes in the low lanes of `d0` (R134). -/
  | feed (n : BitVec 4) (d0 : Word)
  /-- `FINAL`: finalize (R137). -/
  | final
  /-- `STATUS`: read the status view (R138). -/
  | status
  /-- `RDDIGEST`: read the digest again (R139). -/
  | rddigest
  deriving DecidableEq, Repr

end Sys2Proof
end

