-- ==== Sys2Proof/WellFormed.lean ====
section
/-! DEFINITION. Which terms of `Instr` stand for a legal command (R72, R77). -/

namespace Sys2Proof

/-- The count of a FEED is 0 to 8 (R72); no other operand is restricted (R73, R132). -/
def Instr.wellFormed : Instr → Bool
  | .init _ _ => true
  | .feed n _ => decide (n ≤ 8#4)
  | .final => true
  | .status => true
  | .rddigest => true

end Sys2Proof
end

