-- ==== Sys2Proof/Decode.lean ====
section
/-! DEFINITION. The decoder of the command word, total on all 2^136 words and rejecting by name (R70 to R73, R77), and after
it the encoder (R81). -/

namespace Sys2Proof

/-- `CW.OP`, bits 135:132 (R70). -/
def opField (cw : CommandWord) : BitVec 4 := cw.extractLsb' 132 4

/-- `CW.N`, bits 131:128 (R70). -/
def nField (cw : CommandWord) : BitVec 4 := cw.extractLsb' 128 4

/-- `CW.D1`, bits 127:64 (R70). -/
def d1Field (cw : CommandWord) : Word := cw.extractLsb' 64 64

/-- `CW.D0`, bits 63:0 (R70). -/
def d0Field (cw : CommandWord) : Word := cw.extractLsb' 0 64

/-- The header byte `CW[135:128]`, which decides the command alone (R70). -/
def headerByte (cw : CommandWord) : Byte := cw.extractLsb' 128 8

/-- Why a command word is illegal: the three cases of R77. -/
inductive DecodeRefusal where
  /-- `OP` is 0x0 or 0x6 to 0xF. -/
  | reservedOpcode
  /-- `OP` is FEED and `N >= 9`. -/
  | feedCountTooLarge
  /-- `OP` is INIT, FINAL, STATUS or RDDIGEST and `N != 0`. -/
  | countNotZero
  deriving DecidableEq, Repr

/-- What the decoder answers: a command, or the reason there is none. -/
inductive Decoded where
  | command (i : Instr)
  | illegal (why : DecodeRefusal)
  deriving DecidableEq, Repr

/-- A command whose `N` must be 0 (R72). -/
def decodePlain (n : BitVec 4) (i : Instr) : Decoded :=
  if n = 0#4 then .command i else .illegal .countNotZero

/-- A FEED, whose `N` is 0 to 8 (R72). -/
def decodeFeed (n : BitVec 4) (d0 : Word) : Decoded :=
  if n ≤ 8#4 then .command (.feed n d0) else .illegal .feedCountTooLarge

/-- The opcode map of R71 and the illegal words of R77; it looks at no state (R78). -/
def decode (cw : CommandWord) : Decoded :=
  let op := opField cw
  let n := nField cw
  if op = 0x1#4 then decodePlain n (.init (d0Field cw) (d1Field cw))
  else if op = 0x2#4 then decodeFeed n (d0Field cw)
  else if op = 0x3#4 then decodePlain n .final
  else if op = 0x4#4 then decodePlain n .status
  else if op = 0x5#4 then decodePlain n .rddigest
  else .illegal .reservedOpcode

/-- The command of a word, where it spells one. -/
def decode? (cw : CommandWord) : Option Instr :=
  match decode cw with
  | .command i => some i
  | .illegal _ => none

/-- The decoder's answer on an instruction as the opcode table numbers its bits: the one word of a command is 136 bits, and the
bits above `nbits` are 0. -/
def decodeTableWord (nbits w : Nat) : Option Instr :=
  if nbits ≤ 136 then decode? ((BitVec.ofNat nbits w).setWidth 136) else none

/-- `CW = {OP, N, D1, D0}`, first field in the most significant bits (R70, R81). -/
def packCommand (op n : BitVec 4) (d1 d0 : Word) : CommandWord := op ++ n ++ d1 ++ d0

/-- The word of a command (R81). The data words no operand of the command stands for are 0: `D1` of a FEED, both of FINAL, STATUS
and RDDIGEST.
DESIGN CHOICE (notes/assumptions/8.md): `D0` of a FEED is the operand `d0` as it stands, its lanes `n` and above included. R81
gives the word both as `{0x2, n, 0, d0}` and with 0 in the don't-care bits, and R73 makes those lanes don't-care; the model
follows the first, so that `encode` drops no bit of the operand. -/
def encode : Instr → CommandWord
  | .init k0 k1 => packCommand 0x1#4 0#4 k1 k0
  | .feed n d0 => packCommand 0x2#4 n 0#64 d0
  | .final => packCommand 0x3#4 0#4 0#64 0#64
  | .status => packCommand 0x4#4 0#4 0#64 0#64
  | .rddigest => packCommand 0x5#4 0#4 0#64 0#64

end Sys2Proof
end

