-- ==== Sys2Proof/Config.lean ====
section
/-! DEFINITION. What the build fixes: the one open parameter of the spec, `VARIANT` (R9, R10, R112; 92_eei_decisions.md D2). -/

namespace Sys2Proof

/-- The two legal values of `VARIANT` (R9): SipHash-1-3 and SipHash-2-4. -/
inductive Variant where
  | sip13
  | sip24
  deriving DecidableEq, Repr, Inhabited

/-- The variant this engine was built with.
The source does not say which (R9), so it has no body here: no proof can learn its value.
`State.reset` takes it from here; a state carries it as `State.build` (notes/assumptions/1.md). -/
opaque Config.variant : Variant

end Sys2Proof
end

