-- ==== Sys2Proof/Machine/State.lean ====
section
/-! DEFINITION. The state: the engine's record of R20 with its reset values (R35), and beside it what the ports of R50 carry. -/

namespace Sys2Proof.Machine

/-- `PHASE` (R27). The fourth value of its two bits is never taken (R27, R32 item 1), so it has no constructor
(93_implementation_defined.md I11). -/
inductive Phase where
  | uninit
  | absorb
  | done
  deriving DecidableEq, Repr

/-- The result codes of R75; 0x3 to 0xF are never produced. -/
inductive RespCode where
  | ok
  | invalidState
  | illegalCommand
  deriving DecidableEq, Repr

/-- A response word `RSP` (R74). -/
structure Rsp where
  code : RespCode
  val : Word
  deriving DecidableEq, Repr

/-- The two errors of the engine (R170). -/
inductive CommandError where
  /-- A legal command in a phase that does not accept it (R171). -/
  | invalidState
  /-- A command word whose header spells no command (R172). -/
  | illegalCommand
  deriving DecidableEq, Repr

/-- The 4-tuple `V = (V0, V1, V2, V3)` of R22 and R13. -/
structure VState where
  v0 : Word
  v1 : Word
  v2 : Word
  v3 : Word
  deriving DecidableEq, Repr

/-- The whole state of one engine: the record of R20, field by field at the widths written there, and nothing else.
DESIGN CHOICE (notes/assumptions/10.md): R20 calls it "379 bits in all", but the widths of its own record sum to 574; the model
follows the record. -/
structure Engine where
  /-- `K0` (R21). -/
  k0 : Word
  /-- `K1` (R21). -/
  k1 : Word
  /-- `V0..V3` (R22). -/
  v : VState
  /-- `BUF`, pending byte `j` in bits `8*j+7 : 8*j` (R23). -/
  buf : BitVec 56
  /-- `NBUF` (R24). -/
  nbuf : BitVec 3
  /-- `LEN` (R25). -/
  len : Word
  /-- `DIGEST` (R26). -/
  digest : Word
  /-- `PHASE` (R27). -/
  phase : Phase
  /-- `ERR` (R28). -/
  err : Bool
  deriving DecidableEq, Repr

/-- What can reach the engine from outside: a command word on the command port (R50), or its reset input (R200). -/
inductive Input where
  /-- The host presents one command word. -/
  | command (cw : CommandWord)
  /-- Hardware reset, while the engine is idle (`none`) or cutting short the command it is given (R200). -/
  | hardwareReset (cutShort : Option CommandWord)
  deriving DecidableEq, Repr

/-- The engine with its build parameter and its two ports.
`build`, `inputs` and `rsp` are the model's own fields, not the engine's registers (notes/assumptions/1.md, 2.md and 3.md). -/
structure State where
  /-- `VARIANT`, fixed when the engine is built (R9). No step changes it. -/
  build : Variant
  /-- The registers of R20. -/
  eng : Engine
  /-- What the outside world does next, in order: one input a step (R57). It stands for the host, not for a queue in the
  engine (R205). -/
  inputs : List Input
  /-- The response word the last input got, if it got one (R74, R200). -/
  rsp : Option Rsp
  deriving DecidableEq, Repr

/-- What stops the machine: nothing does. An error of the engine is a response and the machine goes on (R173, R176), no
operation has a failure mode (R109, R178) and there are no stuck states (R214), so no step raises a fault and this type has no
constructor (safe: nothing can be proved from a fault). -/
inductive Fault where
  deriving DecidableEq, Repr

/-- What the model has no meaning for. -/
inductive Refusal where
  /-- Raised by an arm of `exec` whose instruction has no meaning yet; no arm does (safe: the machine stops). -/
  | notModelled (mnemonic : String)
  deriving DecidableEq, Repr

/-- Every register at the value of R35's table. -/
def Engine.reset : Engine where
  k0 := 0
  k1 := 0
  v := ⟨0, 0, 0, 0⟩
  buf := 0
  nbuf := 0
  len := 0
  digest := 0
  phase := .uninit
  err := false

/-- The machine right after hardware reset (R35, R200): nothing has been presented, no response was given (R200), and the
variant is the build's (R35, R201). -/
def State.reset : State where
  build := Config.variant
  eng := Engine.reset
  inputs := []
  rsp := none

end Sys2Proof.Machine
end

