-- ==== Sys2Proof/Machine/Flags.lean ====
section
/-! DEFINITION. The one flag `ERR` (R28), the status view assembled from it (R29), and the bits of phases, codes and response words
(R27, R74, R75). No datapath operation sets a flag (R28, R100). -/

namespace Sys2Proof.Machine

/-- The two bits of `PHASE` (R27). -/
def Phase.bits : Phase → BitVec 2
  | .uninit => 0#2
  | .absorb => 1#2
  | .done => 2#2

/-- The four bits of `CODE` (R75). -/
def RespCode.bits : RespCode → BitVec 4
  | .ok => 0x0#4
  | .invalidState => 0x1#4
  | .illegalCommand => 0x2#4

/-- The 68 bits `{CODE, VAL}` on the response port (R74). -/
def Rsp.word (r : Rsp) : BitVec 68 := r.code.bits ++ r.val

/-- The code an error responds with (R170). -/
def CommandError.code : CommandError → RespCode
  | .invalidState => .invalidState
  | .illegalCommand => .illegalCommand

/-- `STATUS.VAR`, hardwired by the build (R29). -/
def variantBit : Variant → BitVec 1
  | .sip13 => 0#1
  | .sip24 => 1#1

/-- The status view `{0000, VAR, ERR, PHASE[1:0]}` (R29). -/
def statusByte (build : Variant) (e : Engine) : BitVec 8 :=
  0#4 ++ variantBit build ++ BitVec.ofBool e.err ++ e.phase.bits

/-- `ERR <- 1`; nothing else changes, and nothing but hardware reset clears it (R28, R173). -/
def Engine.setErr (e : Engine) : Engine := { e with err := true }

end Sys2Proof.Machine
end

