-- ==== Sys2Proof/Machine/Operands.lean ====
section
/-! DEFINITION. The byte lanes: of the data word of a FEED, of the pending buffer and of an absorbed word, little-endian in each
(R51, R72, R73). -/

namespace Sys2Proof.Machine

/-- Byte `i` of a 64-bit word, `w[8*i+7 : 8*i]` (R11). -/
def laneByte (w : Word) (i : Nat) : Byte := w.extractLsb' (8 * i) 8

/-- The bytes of a beat in stream order: lanes `0 .. n-1` of `d0` (R73). -/
def beatBytes (n : BitVec 4) (d0 : Word) : List Byte := (List.range n.toNat).map (laneByte d0)

/-- Pending byte `j`, `BUF[8*j+7 : 8*j]` (R23). -/
def bufByte (buf : BitVec 56) (j : Nat) : Byte := buf.extractLsb' (8 * j) 8

/-- `BUF[8*j+7 : 8*j] <- x`; the other bytes of `BUF` keep their value (R133). -/
def writeBufByte (buf : BitVec 56) (j : Nat) (x : Byte) : BitVec 56 :=
  (buf &&& ~~~(0xff#56 <<< (8 * j))) ||| (x.setWidth 56 <<< (8 * j))

/-- The little-endian word of a group of at most eight bytes, missing bytes 0: `b0 + 2^8*b1 + ...` (R51). -/
def leWord (bytes : List Byte) : Word :=
  bytes.foldr (fun b w => (w <<< 8) ||| b.setWidth 64) 0#64

end Sys2Proof.Machine
end

