-- ==== Sys2Proof/Machine/PrfCore.lean ====
section
/-! DEFINITION. The PRF Core: the datapath functions INITSTATE, SIPROUND, COMPRESS and FINALCORE, pure functions on 64-bit words
(R100 to R107, R112). -/

namespace Sys2Proof.Machine

/-- `C`, the rounds of COMPRESS (R9). -/
def roundsC : Variant → Nat
  | .sip13 => 1
  | .sip24 => 2

/-- `D`, the rounds of FINALCORE (R9). -/
def roundsD : Variant → Nat
  | .sip13 => 3
  | .sip24 => 4

/-- `IC0` (R101). -/
def initConst0 : Word := 0x736f6d6570736575#64

/-- `IC1` (R101). -/
def initConst1 : Word := 0x646f72616e646f6d#64

/-- `IC2` (R101). -/
def initConst2 : Word := 0x6c7967656e657261#64

/-- `IC3` (R101). -/
def initConst3 : Word := 0x7465646279746573#64

/-- `FC` (R101). -/
def finalConst : Word := 0x00000000000000ff#64

/-- `rotl64(x, n)`, for `1 <= n <= 63` (R12, R103). -/
def rotl64 (x : Word) (n : Nat) : Word := (x <<< n) ||| (x >>> (64 - n))

/-- INITSTATE (R102). -/
def initState (k0 k1 : Word) : VState :=
  ⟨xor64 k0 initConst0, xor64 k1 initConst1, xor64 k0 initConst2, xor64 k1 initConst3⟩

/-- SIPROUND: the fourteen statements of R104 in their order, each seeing the results of those before it. -/
def sipRound (v : VState) : VState :=
  let v := { v with v0 := add64 v.v0 v.v1 }
  let v := { v with v1 := rotl64 v.v1 13 }
  let v := { v with v1 := xor64 v.v1 v.v0 }
  let v := { v with v0 := rotl64 v.v0 32 }
  let v := { v with v2 := add64 v.v2 v.v3 }
  let v := { v with v3 := rotl64 v.v3 16 }
  let v := { v with v3 := xor64 v.v3 v.v2 }
  let v := { v with v0 := add64 v.v0 v.v3 }
  let v := { v with v3 := rotl64 v.v3 21 }
  let v := { v with v3 := xor64 v.v3 v.v0 }
  let v := { v with v2 := add64 v.v2 v.v1 }
  let v := { v with v1 := rotl64 v.v1 17 }
  let v := { v with v1 := xor64 v.v1 v.v2 }
  { v with v2 := rotl64 v.v2 32 }

/-- SIPROUND_INV, the statements of R104 run backwards. The engine never computes it (R104). -/
def sipRoundInv (v : VState) : VState :=
  let v := { v with v2 := rotl64 v.v2 32 }
  let v := { v with v1 := xor64 v.v1 v.v2 }
  let v := { v with v1 := rotl64 v.v1 47 }
  let v := { v with v2 := v.v2 - v.v1 }
  let v := { v with v3 := xor64 v.v3 v.v0 }
  let v := { v with v3 := rotl64 v.v3 43 }
  let v := { v with v0 := v.v0 - v.v3 }
  let v := { v with v3 := xor64 v.v3 v.v2 }
  let v := { v with v3 := rotl64 v.v3 48 }
  let v := { v with v2 := v.v2 - v.v3 }
  let v := { v with v0 := rotl64 v.v0 32 }
  let v := { v with v1 := xor64 v.v1 v.v0 }
  let v := { v with v1 := rotl64 v.v1 51 }
  { v with v0 := v.v0 - v.v1 }

/-- `SIPROUND^n(v)`; `SIPROUND^0(v) = v` (R16). -/
def sipRounds : Nat → VState → VState
  | 0, v => v
  | n + 1, v => sipRounds n (sipRound v)

/-- COMPRESS with `c` rounds (R106, R112). -/
def compress (c : Nat) (v : VState) (m : Word) : VState :=
  let w := sipRounds c { v with v3 := xor64 v.v3 m }
  { w with v0 := xor64 w.v0 m }

/-- `v0 ^ v1 ^ v2 ^ v3` (R107). -/
def foldDigest (v : VState) : Word := xor64 (xor64 (xor64 v.v0 v.v1) v.v2) v.v3

/-- FINALCORE with `d` rounds: the state after the rounds, and the digest (R107, R112). -/
def finalCore (d : Nat) (v : VState) : VState × Word :=
  let w := sipRounds d { v with v2 := xor64 v.v2 finalConst }
  (w, foldDigest w)

end Sys2Proof.Machine
end

