-- ==== Sys2Proof/Machine/Ops.lean ====
section
/-! DEFINITION. The shared operations: ending a command (respond, raise), the phase check, hardware reset, and the byte-wise
absorption the hasher commands use. The engine has no memory (R50), so there is no memory operation; and nothing to return from after
an error (R176), so `raise` has no counterpart. -/

namespace Sys2Proof.Machine

/-- What one step of this machine answers. -/
abbrev Result := Host.Outcome State Fault Refusal

/-- `respond(OK, val)`: the command ends with engine `e` (R15, R74, R76). -/
def respond (e : Engine) (val : Word) (s : State) : Result :=
  .next { s with eng := e, rsp := some ⟨.ok, val⟩ }

/-- Error entry, the engine's way of taking an exception (R173): `ERR <- 1`, every other register keeps its value, and the response
is the error's code with value 0. -/
def raise (error : CommandError) (s : State) : Result :=
  .next { s with eng := s.eng.setErr, rsp := some ⟨error.code, 0⟩ }

/-- Which phases accept which command: the table of R130. -/
def accepts : Instr → Phase → Bool
  | .init _ _, _ => true
  | .feed _ _, p => p == .absorb
  | .final, p => p == .absorb
  | .status, _ => true
  | .rddigest, p => p == .done

/-- The phase check of a legal command, before it executes (R131 step 2). -/
def ifAccepted (i : Instr) (s : State) (run : Result) : Result :=
  if accepts i s.eng.phase then run else raise .invalidState s

/-- Hardware reset: every register to its value of R35 and no response; the build stays (R200, R201). -/
def hardwareReset (s : State) : Result :=
  .next { s with eng := Engine.reset, rsp := none }

/-- ABSORB_BYTE: the effect of one input byte on `(V, BUF, NBUF)`, with `c` rounds a word (R133). -/
def absorbByte (c : Nat) (e : Engine) (x : Byte) : Engine :=
  if e.nbuf.toNat < 7 then
    { e with buf := writeBufByte e.buf e.nbuf.toNat x, nbuf := e.nbuf + 1 }
  else
    { e with v := compress c e.v (x ++ e.buf), buf := 0, nbuf := 0 }

/-- ABSORB_BYTE of each byte in order (R134). -/
def absorbBytes (c : Nat) (bytes : List Byte) (e : Engine) : Engine := bytes.foldl (absorbByte c) e

/-- FINALWORD `= {LEN[7:0], BUF[55:0]}` (R136). -/
def finalWord (e : Engine) : Word := e.len.setWidth 8 ++ e.buf

/-- Presenting one more command, before whatever the outside world does next (R57). -/
def State.present (cw : CommandWord) (s : State) : State := { s with inputs := .command cw :: s.inputs }

end Sys2Proof.Machine
end

