-- ==== Sys2Proof/Machine/Hasher.lean ====
section
/-! DEFINITION. The meanings of the Incremental Hasher's commands INIT, FEED and FINAL (R132 to R137). -/

namespace Sys2Proof.Machine

/-- The engine INIT leaves: everything but `ERR` is a function of the key (R132). -/
def initEngine (k0 k1 : Word) (e : Engine) : Engine :=
  { e with k0 := k0, k1 := k1, v := initState k0 k1, buf := 0, nbuf := 0, len := 0, digest := 0, phase := .absorb }

/-- INIT (R132): accepted in every phase, and clears no error flag. -/
def execInit (k0 k1 : Word) (s : State) : Result :=
  ifAccepted (.init k0 k1) s (respond (initEngine k0 k1 s.eng) 0 s)

/-- The engine a FEED of `n` bytes leaves (R134). -/
def feedEngine (build : Variant) (n : BitVec 4) (d0 : Word) (e : Engine) : Engine :=
  { absorbBytes (roundsC build) (beatBytes n d0) e with len := add64 e.len (n.setWidth 64) }

/-- FEED (R134). A count above 8 is illegal before the phase is looked at (R78); the decoder lets no such term through, and the
term itself means the same. -/
def execFeed (n : BitVec 4) (d0 : Word) (s : State) : Result :=
  if n ≤ 8#4 then
    ifAccepted (.feed n d0) s (respond (feedEngine s.build n d0 s.eng) 0 s)
  else raise .illegalCommand s

/-- The state words and the digest FINAL computes (R137). -/
def finalResult (build : Variant) (e : Engine) : VState × Word :=
  finalCore (roundsD build) (compress (roundsC build) e.v (finalWord e))

/-- The engine FINAL leaves: `V`, `DIGEST` and `PHASE` written, the rest unchanged (R137). -/
def finalEngine (build : Variant) (e : Engine) : Engine :=
  { e with v := (finalResult build e).1, digest := (finalResult build e).2, phase := .done }

/-- FINAL (R137). -/
def execFinal (s : State) : Result :=
  ifAccepted .final s (respond (finalEngine s.build s.eng) (finalResult s.build s.eng).2 s)

end Sys2Proof.Machine
end

