-- ==== Sys2Proof/Machine/System.lean ====
section
/-! DEFINITION. The meanings of the system commands STATUS and RDDIGEST (R138, R139); there are no others (R140). -/

namespace Sys2Proof.Machine

/-- STATUS (R138): accepted in every phase, changes no register. -/
def execStatus (s : State) : Result :=
  ifAccepted .status s (respond s.eng ((statusByte s.build s.eng).setWidth 64) s)

/-- RDDIGEST (R139): accepted in `DONE` only, changes no register. -/
def execRddigest (s : State) : Result :=
  ifAccepted .rddigest s (respond s.eng s.eng.digest s)

end Sys2Proof.Machine
end

