-- ==== Sys2Proof/Machine/Dispatch.lean ====
section
/-! DEFINITION. The dispatch: one arm per command. -/

namespace Sys2Proof.Machine

def exec (i : Instr) (s : State) : Host.Outcome State Fault Refusal :=
  match i with
  | .init k0 k1 => Sys2Proof.Machine.execInit k0 k1 s
  | .feed n d0 => Sys2Proof.Machine.execFeed n d0 s
  | .final => Sys2Proof.Machine.execFinal s
  | .status => Sys2Proof.Machine.execStatus s
  | .rddigest => Sys2Proof.Machine.execRddigest s

end Sys2Proof.Machine
end

