-- ==== Sys2Proof/Machine/Command.lean ====
section
/-! DEFINITION. What one input does: a command word goes through the frame of R131, a reset through R200. -/

namespace Sys2Proof.Machine

/-- The common frame of every command: decode, then the command's own phase check and effect (R131, R78). -/
def runCommand (cw : CommandWord) (s : State) : Result :=
  match decode cw with
  | .command i => exec i s
  | .illegal _ => raise .illegalCommand s

/-- One input. A command that reset cuts short has no effect that survives it and gets no response (R200). -/
def runInput (x : Input) (s : State) : Result :=
  match x with
  | .command cw => runCommand cw s
  | .hardwareReset _ => hardwareReset s

/-- The next command word as the opcode table numbers its bits, the bits above `nbits` 0. -/
def tableCommand (nbits w : Nat) : CommandWord := (BitVec.ofNat nbits w).setWidth 136

end Sys2Proof.Machine
end

