-- ==== Sys2Proof/Machine/Step.lean ====
section
/-! DEFINITION. The step: one input, run to completion (R57). -/

namespace Sys2Proof.Machine

/-- One step: the next input is taken and runs whole (R57, R131). With no input the engine is idle and holds its state
(R181). -/
def step (s : State) : Host.Outcome State Fault Refusal :=
  match s.inputs with
  | [] => .next s
  | x :: rest => runInput x { s with inputs := rest }

/-- `s` with one instruction presented as the very next command (notes/assumptions/2.md). -/
def State.withFetchWord (s : State) (nbits w : Nat) : State := s.present (tableCommand nbits w)

end Sys2Proof.Machine
end

