-- ==== Sys2Proof/Machine/SipHash.lean ====
section
/-! DEFINITION. SIPHASH: the function of key and byte sequence that the engine computes, stated without the state machine (R108).
The step does not use it; the statements compare the two. -/

namespace Sys2Proof.Machine

/-- `m[i]`: the little-endian word of bytes `8i .. 8i+7` (R108). -/
def streamWord (bytes : List Byte) (i : Nat) : Word := leWord ((bytes.drop (8 * i)).take 8)

/-- The state of the loop of R108 after the `floor(L / 8)` whole words. -/
def absorbWords (variant : Variant) (k0 k1 : Word) (bytes : List Byte) : VState :=
  (List.range (bytes.length / 8)).foldl
    (fun v i => compress (roundsC variant) v (streamWord bytes i)) (initState k0 k1)

/-- The bytes after the last whole word: the last `L mod 8` (R108). -/
def tailBytes (bytes : List Byte) : List Byte := bytes.drop (8 * (bytes.length / 8))

/-- The final word `b` of a stream: the length modulo 256 above its last `L mod 8` bytes (R108). -/
def streamFinalWord (bytes : List Byte) : Word :=
  (BitVec.ofNat 64 (bytes.length % 256) <<< 56) ||| leWord (tailBytes bytes)

/-- SIPHASH (R108). -/
def sipHash (variant : Variant) (k0 k1 : Word) (bytes : List Byte) : Word :=
  let v := absorbWords variant k0 k1 bytes
  let v := compress (roundsC variant) v (streamFinalWord bytes)
  (finalCore (roundsD variant) v).2

end Sys2Proof.Machine
end

