-- ==== Sys2Proof/Machine/Assembler.lean ====
section
/-! DEFINITION. The assembler syntax of R81 and the pseudo-commands FEEDS and HASH of R82. All of it is the host's side: the step
never sees an assembly line, only the command words it stands for. -/

namespace Sys2Proof.Machine

/-- One line of assembly (R81), a raw command word, or a pseudo-command (R82). -/
inductive AsmLine where
  /-- `INIT k0, k1`. -/
  | init (k0 k1 : Word)
  /-- `FEED n, d0`. -/
  | feed (n : Nat) (d0 : Word)
  /-- `FEED "text"` and `FEED [b0 b1 ...]`. -/
  | feedBytes (bytes : List Byte)
  /-- `FINAL`. -/
  | final
  /-- `STATUS`. -/
  | status
  /-- `RDDIGEST`. -/
  | rddigest
  /-- `.cw 0x<34 hex digits>`. -/
  | raw (cw : CommandWord)
  /-- `FEEDS <bytes>`. -/
  | feeds (bytes : List Byte)
  /-- `HASH k0, k1, <bytes>`. -/
  | hash (k0 k1 : Word) (bytes : List Byte)
  deriving DecidableEq, Repr

/-- The beat of up to eight bytes: first byte in lane 0, unused lanes 0 (R81). -/
def beatOf (bytes : List Byte) : Instr := .feed (BitVec.ofNat 4 bytes.length) (leWord bytes)

/-- FEEDS: one full beat for each whole group of eight bytes, then one for the rest if there is a rest (R82). -/
def feedsExpansion (bytes : List Byte) : List Instr :=
  (List.range (bytes.length / 8)).map (fun q => .feed 8#4 (streamWord bytes q)) ++
    (if bytes.length % 8 = 0 then [] else [beatOf (tailBytes bytes)])

/-- HASH: INIT, FEEDS, FINAL (R82). -/
def hashExpansion (k0 k1 : Word) (bytes : List Byte) : List Instr :=
  .init k0 k1 :: (feedsExpansion bytes ++ [.final])

/-- The command words of a line; `none` where the line breaks a bound of R81.
DESIGN CHOICE (notes/assumptions/8.md): a line `FEED n, d0` emits `d0` as it stands, lanes `n` and above included, by the
`{0x2, n, 0, d0}` of R81; they are not cleared, although R81 also says that the don't-care bits are emitted as 0. The forms with
bytes (`beatOf`) have 0 there. -/
def assemble : AsmLine → Option (List CommandWord)
  | .init k0 k1 => some [encode (.init k0 k1)]
  | .feed n d0 => if n ≤ 8 then some [encode (.feed (BitVec.ofNat 4 n) d0)] else none
  | .feedBytes bytes => if bytes.length ≤ 8 then some [encode (beatOf bytes)] else none
  | .final => some [encode .final]
  | .status => some [encode .status]
  | .rddigest => some [encode .rddigest]
  | .raw cw => some [cw]
  | .feeds bytes => some ((feedsExpansion bytes).map encode)
  | .hash k0 k1 bytes => some ((hashExpansion k0 k1 bytes).map encode)

/-- A blank of a line. -/
def isBlank (c : Char) : Bool := c == ' ' || c == '\t'

/-- The characters without leading and trailing blanks. -/
def trimBlanks (cs : List Char) : List Char :=
  ((cs.dropWhile isBlank).reverse.dropWhile isBlank).reverse

/-- `;` starts a comment, but not inside a quoted text (R81). -/
def dropComment : Bool → List Char → List Char
  | _, [] => []
  | quoted, c :: cs =>
    if c == '"' then c :: dropComment (!quoted) cs
    else if c == ';' && !quoted then []
    else c :: dropComment quoted cs

/-- The value of one digit, hexadecimal digits in either case. -/
def digitValue (c : Char) : Option Nat :=
  if '0' ≤ c ∧ c ≤ '9' then some (c.toNat - '0'.toNat)
  else if 'a' ≤ c ∧ c ≤ 'f' then some (c.toNat - 'a'.toNat + 10)
  else if 'A' ≤ c ∧ c ≤ 'F' then some (c.toNat - 'A'.toNat + 10)
  else none

/-- Digits of a base, most significant first, above the value read so far. -/
def digitsFrom (base : Nat) : Nat → List Char → Option Nat
  | acc, [] => some acc
  | acc, c :: cs =>
    match digitValue c with
    | some d => if d < base then digitsFrom base (base * acc + d) cs else none
    | none => none

/-- A number: hexadecimal with `0x`, or decimal (R81). -/
def parseNumber (cs : List Char) : Option Nat :=
  match cs with
  | [] => none
  | ['0', 'x'] => none
  | '0' :: 'x' :: ds => digitsFrom 16 0 ds
  | ds => digitsFrom 10 0 ds

/-- A 64-bit literal. -/
def parseWord (cs : List Char) : Option Word :=
  match parseNumber cs with
  | some n => if n < 2 ^ 64 then some (BitVec.ofNat 64 n) else none
  | none => none

/-- The two operands of a line, around its one comma. -/
def splitAtComma (cs : List Char) : Option (List Char × List Char) :=
  match cs.dropWhile (· != ',') with
  | [] => none
  | _ :: rest => some (trimBlanks (cs.takeWhile (· != ',')), trimBlanks rest)

/-- The ASCII bytes of a quoted text, which ends the line (R81). -/
def parseText : List Char → Option (List Byte)
  | [] => none
  | ['"'] => some []
  | c :: cs =>
    if c == '"' || 128 ≤ c.toNat then none
    else (parseText cs).map (BitVec.ofNat 8 c.toNat :: ·)

/-- Two-digit hexadecimal bytes up to the closing bracket, which ends the line (R81).
DESIGN CHOICE (notes/assumptions/8.md): R81 shows the bytes with a space between them and does not say whether the space is
needed; here spaces may stand before and after any byte and none is needed, so `[080e]` is the two bytes of `[08 0e]`. -/
def parseByteList : List Char → Option (List Byte)
  | [] => none
  | [']'] => some []
  | ' ' :: cs => parseByteList cs
  | [_] => none
  | a :: b :: cs =>
    match digitValue a, digitValue b with
    | some x, some y => (parseByteList cs).map (BitVec.ofNat 8 (16 * x + y) :: ·)
    | _, _ => none

/-- The operands of a FEED in its three forms (R81). -/
def parseFeed (operands : List Char) : Option AsmLine :=
  match operands with
  | '"' :: cs => (parseText cs).map AsmLine.feedBytes
  | '[' :: cs => (parseByteList cs).map AsmLine.feedBytes
  | cs =>
    match splitAtComma cs with
    | some (a, b) =>
      match parseNumber a, parseWord b with
      | some n, some d0 => some (.feed n d0)
      | _, _ => none
    | none => none

/-- The operands of an INIT. -/
def parseInit (operands : List Char) : Option AsmLine :=
  match splitAtComma operands with
  | some (a, b) =>
    match parseWord a, parseWord b with
    | some k0, some k1 => some (.init k0 k1)
    | _, _ => none
  | none => none

/-- The operand of `.cw`: `0x` and exactly 34 hexadecimal digits (R81). -/
def parseRaw (operand : List Char) : Option AsmLine :=
  match operand with
  | '0' :: 'x' :: ds =>
    if ds.length = 34 then (digitsFrom 16 0 ds).map (fun n => AsmLine.raw (BitVec.ofNat 136 n)) else none
  | _ => none

/-- A command without operands. -/
def parsePlain (operands : List Char) (line : AsmLine) : Option AsmLine :=
  if operands = [] then some line else none

/-- One line of R81: the outer `none` is a line that is not assembly, the inner `none` a line without a command. -/
def parseLine (line : List Char) : Option (Option AsmLine) :=
  let cs := trimBlanks (dropComment false line)
  let name := cs.takeWhile (fun c => !isBlank c)
  let operands := trimBlanks (cs.dropWhile (fun c => !isBlank c))
  if cs = [] then some none
  else if name = ['I', 'N', 'I', 'T'] then (parseInit operands).map some
  else if name = ['F', 'E', 'E', 'D'] then (parseFeed operands).map some
  else if name = ['F', 'I', 'N', 'A', 'L'] then (parsePlain operands .final).map some
  else if name = ['S', 'T', 'A', 'T', 'U', 'S'] then (parsePlain operands .status).map some
  else if name = ['R', 'D', 'D', 'I', 'G', 'E', 'S', 'T'] then (parsePlain operands .rddigest).map some
  else if name = ['.', 'c', 'w'] then (parseRaw operands).map some
  else none

end Sys2Proof.Machine
end

