-- ==== Sys2Proof/Machine/Port.lean ====
section
/-! DEFINITION. Sequences of commands through the step: the transaction view of R15 and R57, runs of a command list, and several
engines side by side (R180). -/

namespace Sys2Proof.Machine

/-- `k` steps of the machine. -/
def runSteps (k : Nat) (s : State) : Result := Sys2Proof.core.run k s

/-- A list of command words presented before whatever the outside world does next. -/
def State.presentAll (cws : List CommandWord) (s : State) : State :=
  { s with inputs := cws.map Input.command ++ s.inputs }

/-- One command on a port with nothing else waiting. -/
def commandState (build : Variant) (e : Engine) (cw : CommandWord) : State :=
  { build := build, eng := e, inputs := [.command cw], rsp := none }

/-- `step : State × CW -> State × RSP` of R15 as this machine's step takes it: the engine after one command, and the response. -/
def transact (build : Variant) (e : Engine) (cw : CommandWord) : Engine × Option Rsp :=
  match step (commandState build e cw) with
  | .next t => (t.eng, t.rsp)
  | .fault _ => (e, none)
  | .refused _ => (e, none)

/-- The engine after a sequence of commands: the left fold of R57. -/
def transactAll (build : Variant) (e : Engine) (cws : List CommandWord) : Engine :=
  cws.foldl (fun e cw => (transact build e cw).1) e

/-- The stream bytes a command adds when it is accepted: those of a legal FEED. -/
def fedBytes (cw : CommandWord) : List Byte :=
  match decode cw with
  | .command (.feed n d0) => beatBytes n d0
  | _ => []

/-- Whether a command word is a legal INIT or FINAL: the two that end a stream (R130). -/
def endsStream (cw : CommandWord) : Bool :=
  match decode cw with
  | .command (.init _ _) => true
  | .command .final => true
  | _ => false

/-- Several engines side by side: one takes a step, the others are untouched (R180). -/
def stepInstance (k : Nat) (engines : List State) : List State :=
  engines.modify k (fun s => match step s with
    | .next t => t
    | .fault _ => s
    | .refused _ => s)

end Sys2Proof.Machine
end

