-- ==== Sys2Proof/Safety.lean ====
section
/-! DEFINITION. What claims call safe: the invariant of reachable states (R32), and a step that reports no misuse (R170). -/

namespace Sys2Proof.Machine

/-- Items 2 to 4 of R32: the buffer is zero above its count, and the count is the length modulo 8. `NBUF <= 7` is the width of
`NBUF`. -/
def BufferInv (e : Engine) : Prop :=
  (∀ j, e.nbuf.toNat ≤ j → j ≤ 6 → bufByte e.buf j = 0#8) ∧ e.nbuf.toNat = e.len.toNat % 8

/-- Item 5 of R32: before the first INIT every data register holds its reset value 0. -/
def UninitInv (e : Engine) : Prop :=
  e.phase = .uninit →
    e.k0 = 0 ∧ e.k1 = 0 ∧ e.v = ⟨0, 0, 0, 0⟩ ∧ e.buf = 0 ∧ e.nbuf = 0 ∧ e.len = 0 ∧ e.digest = 0

/-- Item 6 of R32. -/
def AbsorbInv (e : Engine) : Prop := e.phase = .absorb → e.digest = 0

/-- The invariant of reachable states (R32); its item 1 is the type `Phase`. -/
def ReachableInv (e : Engine) : Prop := BufferInv e ∧ UninitInv e ∧ AbsorbInv e

/-- The thirteen legal header bytes, as R77 lists them. -/
def legalHeaders : List Byte :=
  [0x10, 0x20, 0x21, 0x22, 0x23, 0x24, 0x25, 0x26, 0x27, 0x28, 0x30, 0x40, 0x50]

/-- The three cases in which R77 calls a command word illegal. -/
abbrev IllegalWord (cw : CommandWord) : Prop :=
  (opField cw = 0x0#4 ∨ 0x6#4 ≤ opField cw) ∨
  (opField cw = 0x2#4 ∧ 9#4 ≤ nField cw) ∨
  ((opField cw = 0x1#4 ∨ opField cw = 0x3#4 ∨ opField cw = 0x4#4 ∨ opField cw = 0x5#4) ∧ nField cw ≠ 0#4)

/-- What R173 leaves after an error of the given code: `ERR` set, the response, and nothing else. -/
def afterError (code : RespCode) (s : State) : State :=
  { s with eng := { s.eng with err := true }, rsp := some ⟨code, 0⟩ }

/-- The last input reported no misuse (R170, R210). -/
def NoMisuse (s : State) : Prop := ∀ r, s.rsp = some r → r.code = .ok

end Sys2Proof.Machine
end

