-- ==== Sys2Proof/Certificates/Slice0/Obligations.lean ====
section
/-! DEFINITION. The statements for the provers. Each docstring names what of the spec it formalises. -/

open Sys2Proof Sys2Proof.Machine

/-! ### Encoding -/

/-- 30_encoding.md sections 1 and 6: the word of a well-formed command decodes to that command, with every operand at every value
its field admits. That the lanes `n` and above of `d0` in a FEED come back rests on the model's choice to emit them as they stand
(notes/assumptions/8.md). -/
def Obligations.DecodeOfEncodeIsTheCommand : Prop :=
  ∀ i : Instr, i.wellFormed = true → decode (encode i) = .command i

/-- 30_encoding.md sections 1 and 2: what a word decodes to is well-formed, its encoding has the same header byte, and its operands
are the fields of the word. -/
def Obligations.DecodedOperandsAreTheFields : Prop :=
  ∀ (cw : CommandWord) (i : Instr), decode cw = .command i →
    i.wellFormed = true ∧
    headerByte (encode i) = headerByte cw ∧
    (∀ k0 k1, i = .init k0 k1 → k0 = d0Field cw ∧ k1 = d1Field cw) ∧
    (∀ n d0, i = .feed n d0 → n = nField cw ∧ d0 = d0Field cw)

/-- R77: the illegal words are exactly those of its three cases; thirteen header bytes are legal and 243 are not, whatever the
data words; and an illegal word gets `ILLEGAL_COMMAND` and changes nothing but `ERR`. -/
def Obligations.IllegalWordsExactly : Prop :=
  (∀ cw, (∃ why, decode cw = .illegal why) ↔ IllegalWord cw) ∧
  (∀ (h : Byte) (d1 d0 : Word), (decode? (h ++ d1 ++ d0)).isSome = true ↔ h ∈ legalHeaders) ∧
  legalHeaders.Nodup ∧ legalHeaders.length = 13 ∧ 2 ^ 8 - legalHeaders.length = 243 ∧
  (∀ cw s, IllegalWord cw → runCommand cw s = .next (afterError .illegalCommand s))

/-- 30_encoding.md section 1: the eight header bits decide the command alone; the data words never take part in decoding. -/
def Obligations.HeaderAloneDecides : Prop :=
  ∀ cw cw' : CommandWord, headerByte cw = headerByte cw' →
    (∀ why, decode cw = .illegal why ↔ decode cw' = .illegal why) ∧
    (∀ i i', decode cw = .command i → decode cw' = .command i' → headerByte (encode i) = headerByte (encode i'))

/-- 30_encoding.md section 6, the worked encodings: each assembly line is the word written there, and the word decodes to the
command it stands for. -/
def Obligations.WorkedEncodings : Prop :=
  assemble (.init 0x0706050403020100 0x0f0e0d0c0b0a0908) = some [0x100f0e0d0c0b0a09080706050403020100#136] ∧
  assemble (.init 0 0) = some [0x1000000000000000000000000000000000#136] ∧
  assemble (.feedBytes [0x75, 0x73, 0x65, 0x72, 0x5f, 0x31]) = some [0x2600000000000000000000315f72657375#136] ∧
  assemble (.feed 8 0x0706050403020100) = some [0x2800000000000000000706050403020100#136] ∧
  assemble (.feed 0 0) = some [0x2000000000000000000000000000000000#136] ∧
  assemble .final = some [0x3000000000000000000000000000000000#136] ∧
  assemble .status = some [0x4000000000000000000000000000000000#136] ∧
  assemble .rddigest = some [0x5000000000000000000000000000000000#136] ∧
  decode 0x100f0e0d0c0b0a09080706050403020100#136 = .command (.init 0x0706050403020100 0x0f0e0d0c0b0a0908) ∧
  decode 0x1000000000000000000000000000000000#136 = .command (.init 0 0) ∧
  decode 0x2600000000000000000000315f72657375#136 = .command (.feed 6 0x0000315f72657375) ∧
  decode 0x2800000000000000000706050403020100#136 = .command (.feed 8 0x0706050403020100) ∧
  decode 0x2000000000000000000000000000000000#136 = .command (.feed 0 0) ∧
  decode 0x3000000000000000000000000000000000#136 = .command .final ∧
  decode 0x4000000000000000000000000000000000#136 = .command .status ∧
  decode 0x5000000000000000000000000000000000#136 = .command .rddigest

/-- R73: INIT reads both data words whole and unswapped; FEED reads the `N` low lanes of `D0`; every other data bit has no effect
on the new state or the response. -/
def Obligations.UnusedDataBitsAreIgnored : Prop :=
  (∀ k0 k1 : Word, decode (packCommand 0x1#4 0#4 k1 k0) = .command (.init k0 k1)) ∧
  (∀ (n : BitVec 4) (d0 : Word), n ≤ 8#4 →
    (beatBytes n d0).length = n.toNat ∧
    ∀ i, i < n.toNat → (beatBytes n d0)[i]? = some (d0.extractLsb' (8 * i) 8)) ∧
  (∀ (n : BitVec 4) (d1 d1' d0 d0' : Word) (s : State), n ≤ 8#4 →
    (∀ i, i < n.toNat → d0.extractLsb' (8 * i) 8 = d0'.extractLsb' (8 * i) 8) →
    runCommand (packCommand 0x2#4 n d1 d0) s = runCommand (packCommand 0x2#4 n d1' d0') s) ∧
  (∀ (op : BitVec 4) (d1 d1' d0 d0' : Word) (s : State), op = 0x3#4 ∨ op = 0x4#4 ∨ op = 0x5#4 →
    runCommand (packCommand op 0#4 d1 d0) s = runCommand (packCommand op 0#4 d1' d0') s)

/-! ### The PRF Core -/

/-- 40_prf_core.md section 2: addition wraps modulo 2^64, exclusive or works bit by bit, and bit `i` moves to bit `(i + n) mod 64`
under rotation by any amount the datapath uses. -/
def Obligations.WordOperationLaws : Prop :=
  (∀ a b : Word, (add64 a b).toNat = (a.toNat + b.toNat) % 2 ^ 64) ∧
  (∀ (a b : Word) (i : Nat), (xor64 a b).getLsbD i = Bool.xor (a.getLsbD i) (b.getLsbD i)) ∧
  (∀ (x : Word) (n i : Nat), n ∈ [13, 16, 17, 21, 32] → i < 64 →
    (rotl64 x n).getLsbD ((i + n) % 64) = x.getLsbD i)

/-- 40_prf_core.md section 4: INITSTATE is the four exclusive ors, INIT loads it, and the corner cases hold: the differences that
no key changes, the keys that clear two words, and that no key gives the zero state. -/
def Obligations.InitStateOfTheKey : Prop :=
  (∀ k0 k1 : Word, initState k0 k1 =
    ⟨k0 ^^^ 0x736f6d6570736575, k1 ^^^ 0x646f72616e646f6d, k0 ^^^ 0x6c7967656e657261, k1 ^^^ 0x7465646279746573⟩) ∧
  (∀ k0 k1 s t, exec (.init k0 k1) s = .next t → t.eng.v = initState k0 k1 ∧ t.eng.v.v0 ^^^ 0x736f6d6570736575 = k0) ∧
  (∀ k0 k1 : Word, (initState k0 k1).v0 ^^^ (initState k0 k1).v2 = 0x1f160a001e161714 ∧
    (initState k0 k1).v1 ^^^ (initState k0 k1).v3 = 0x100a160317100a1e) ∧
  initState 0x736f6d6570736575 0x646f72616e646f6d = ⟨0, 0, 0x1f160a001e161714, 0x100a160317100a1e⟩ ∧
  (∀ k0 k1 : Word, initState k0 k1 ≠ ⟨0, 0, 0, 0⟩) ∧
  initState 0x0706050403020100 0x0f0e0d0c0b0a0908 =
    ⟨0x7469686173716475, 0x6b617f6d656e6665, 0x6b7f62616d677361, 0x7b6b696e727e6c7b⟩

/-- 40_prf_core.md section 5: the fourteen statements in their two pairs of groups, of which each pair may be computed in
parallel. -/
def Obligations.SipRoundInTwoHalves : Prop :=
  ∀ v0 v1 v2 v3 : Word,
    let a := v0 + v1
    let b := v1.rotateLeft 13 ^^^ a
    let c := v2 + v3
    let d := v3.rotateLeft 16 ^^^ c
    let e := a.rotateLeft 32 + d
    let f := c + b
    sipRound ⟨v0, v1, v2, v3⟩ = ⟨e, b.rotateLeft 17 ^^^ f, f.rotateLeft 32, d.rotateLeft 21 ^^^ e⟩

/-- 40_prf_core.md section 5: the round is a permutation, and the backward statements are its inverse on both sides. -/
def Obligations.SipRoundIsAPermutation : Prop :=
  ∀ v : VState, sipRoundInv (sipRound v) = v ∧ sipRound (sipRoundInv v) = v

/-- 40_prf_core.md section 6, for every number of rounds: COMPRESS by a fixed word is a bijection on state tuples; the zero word
leaves the rounds alone; the zero state is a fixed point of the zero word; without rounds only the two exclusive ors remain. -/
def Obligations.CompressByAFixedWordIsABijection : Prop :=
  ∀ (c : Nat) (m : Word),
    (∀ v v', compress c v m = compress c v' m → v = v') ∧
    (∀ w, ∃ v, compress c v m = w) ∧
    (∀ v, compress c v 0 = sipRounds c v) ∧
    compress c ⟨0, 0, 0, 0⟩ 0 = ⟨0, 0, 0, 0⟩ ∧
    (∀ v, compress 0 v m = { v with v0 := v.v0 ^^^ m, v3 := v.v3 ^^^ m })

/-- 40_prf_core.md section 7, for every number of rounds: the state FINALCORE leaves is a bijection of its input, the digest is
the exclusive or of the four words it leaves, and only bits 7:0 of `v2` are inverted before the rounds. -/
def Obligations.FinalCoreStateIsABijection : Prop :=
  ∀ d : Nat,
    (∀ v v', (finalCore d v).1 = (finalCore d v').1 → v = v') ∧
    (∀ w, ∃ v, (finalCore d v).1 = w) ∧
    (∀ v, (finalCore d v).2 =
      (finalCore d v).1.v0 ^^^ (finalCore d v).1.v1 ^^^ (finalCore d v).1.v2 ^^^ (finalCore d v).1.v3) ∧
    (∀ v v' : VState, v.v0 = v'.v0 → v.v1 = v'.v1 → v.v3 = v'.v3 →
      (∀ i, v'.v2.getLsbD i = Bool.xor (v.v2.getLsbD i) (decide (i < 8))) →
      (finalCore d v).1 = sipRounds d v')

/-- 00_scope.md section 4: the round counts of the two variants. -/
def Obligations.RoundCountsOfTheVariants : Prop :=
  roundsC .sip13 = 1 ∧ roundsD .sip13 = 3 ∧ roundsC .sip24 = 2 ∧ roundsD .sip24 = 4

/-- 95_test_vectors.md section 1: the values the spec knows from outside its source. -/
def Obligations.PublishedDigests : Prop :=
  sipHash .sip24 0x0706050403020100 0x0f0e0d0c0b0a0908 [] = 0x726fdb47dd0e0e31 ∧
  sipHash .sip24 0x0706050403020100 0x0f0e0d0c0b0a0908 [0, 1, 2, 3, 4, 5, 6, 7, 8, 9, 10, 11, 12, 13, 14] =
    0xa129ca6149be45e5 ∧
  sipHash .sip13 0x0706050403020100 0x0f0e0d0c0b0a0908 [] = 0xabac0158050fc4dc

/-! ### The commands -/

/-- R130: the transition table, one clause per column, in every phase. -/
def Obligations.PhaseTransitionTable : Prop :=
  ∀ s : State,
    (∀ k0 k1, ∃ t r, exec (.init k0 k1) s = .next t ∧ t.rsp = some r ∧ r.code = .ok ∧ t.eng.phase = .absorb) ∧
    (∀ n d0, n ≤ 8#4 → ∃ t r, exec (.feed n d0) s = .next t ∧ t.rsp = some r ∧ t.eng.phase = s.eng.phase ∧
      r.code = if s.eng.phase = .absorb then .ok else .invalidState) ∧
    (∃ t r, exec .final s = .next t ∧ t.rsp = some r ∧
      (r.code = if s.eng.phase = .absorb then .ok else .invalidState) ∧
      t.eng.phase = if s.eng.phase = .absorb then .done else s.eng.phase) ∧
    (∃ t r, exec .status s = .next t ∧ t.rsp = some r ∧ r.code = .ok ∧ t.eng.phase = s.eng.phase) ∧
    (∃ t r, exec .rddigest s = .next t ∧ t.rsp = some r ∧ t.eng.phase = s.eng.phase ∧
      r.code = if s.eng.phase = .done then .ok else .invalidState) ∧
    (∀ cw, IllegalWord cw → ∃ t r, runCommand cw s = .next t ∧ t.rsp = some r ∧ r.code = .illegalCommand ∧
      t.eng.phase = s.eng.phase)

/-- R171: `INVALID_STATE` is raised exactly by FEED and FINAL outside `ABSORB` and by RDDIGEST outside `DONE`; never by INIT and
STATUS. -/
def Obligations.InvalidStateExactly : Prop :=
  ∀ (i : Instr) (s : State), i.wellFormed = true →
    ((∃ t r, exec i s = .next t ∧ t.rsp = some r ∧ r.code = .invalidState) ↔
      ((∃ n d0, i = .feed n d0) ∨ i = .final) ∧ s.eng.phase ≠ .absorb ∨
      i = .rddigest ∧ s.eng.phase ≠ .done)

/-- R172 and R78: every illegal word is answered `ILLEGAL_COMMAND` in every state alike, also where the phase is wrong; and a legal
word never is. -/
def Obligations.IllegalCommandInEveryPhase : Prop :=
  (∀ (cw : CommandWord) (s : State), IllegalWord cw → runCommand cw s = .next (afterError .illegalCommand s)) ∧
  (∀ (cw : CommandWord) (s t : State) (r : Rsp), ¬ IllegalWord cw → runCommand cw s = .next t → t.rsp = some r →
    r.code ≠ .illegalCommand)

/-- R173: whatever command ends in an error, `ERR` is set, every other register and port keeps its value, and the response is the
code, 1 or 2, with value 0. -/
def Obligations.ErrorChangesOnlyErr : Prop :=
  ∀ (cw : CommandWord) (s t : State) (r : Rsp),
    runCommand cw s = .next t → t.rsp = some r → r.code ≠ .ok →
    t = { s with eng := { s.eng with err := true }, rsp := some ⟨r.code, 0⟩ } ∧
    (r.code.bits = 1#4 ∨ r.code.bits = 2#4)

/-- 41_hasher_commands.md section 2: INIT in any state, register by register; it does not clear `ERR`; with `N != 0` it is
illegal. -/
def Obligations.InitConstructsAHasher : Prop :=
  (∀ (k0 k1 : Word) (s : State), exec (.init k0 k1) s = .next { s with
    eng := { k0 := k0, k1 := k1, v := initState k0 k1, buf := 0, nbuf := 0, len := 0, digest := 0, phase := .absorb,
             err := s.eng.err },
    rsp := some ⟨.ok, 0⟩ }) ∧
  (∀ (n : BitVec 4) (k0 k1 : Word) (s : State), n ≠ 0#4 →
    runCommand (packCommand 0x1#4 n k1 k0) s = .next (afterError .illegalCommand s))

/-- R133: ABSORB_BYTE below seven pending bytes stores the byte in its lane and leaves the others; at seven it compresses the
little-endian word of the eight and clears the buffer; and with the buffer zero above its count the write is an inclusive or. -/
def Obligations.AbsorbByteEffect : Prop :=
  ∀ (c : Nat) (e : Engine) (x : Byte),
    (e.nbuf.toNat < 7 → ∃ buf, absorbByte c e x = { e with buf := buf, nbuf := e.nbuf + 1 } ∧
      ∀ j, j < 7 → bufByte buf j = if j = e.nbuf.toNat then x else bufByte e.buf j) ∧
    (e.nbuf.toNat = 7 → ∃ m : Word, absorbByte c e x = { e with v := compress c e.v m, buf := 0, nbuf := 0 } ∧
      laneByte m 7 = x ∧ ∀ j, j < 7 → laneByte m j = bufByte e.buf j) ∧
    (e.nbuf.toNat < 7 → (∀ j, e.nbuf.toNat ≤ j → j ≤ 6 → bufByte e.buf j = 0) →
      (absorbByte c e x).buf = e.buf ||| (x.setWidth 56 <<< (8 * e.nbuf.toNat)))

/-- 41_hasher_commands.md section 3: FEED in `ABSORB` absorbs its lanes in increasing order and adds `N` to `LEN`; an empty beat
changes no register; outside `ABSORB` it is refused; a count above 8 is illegal in every phase. That the TERM with such a count, which
no word decodes to, answers so is the model's choice (notes/assumptions/6.md). -/
def Obligations.FeedAbsorbsItsLanes : Prop :=
  ∀ (n : BitVec 4) (d0 : Word) (s : State),
    (n ≤ 8#4 → s.eng.phase = .absorb → exec (.feed n d0) s = .next { s with
      eng := { (List.range n.toNat).foldl
                 (fun e i => absorbByte (roundsC s.build) e (d0.extractLsb' (8 * i) 8)) s.eng with
               len := s.eng.len + n.setWidth 64 },
      rsp := some ⟨.ok, 0⟩ }) ∧
    (n = 0#4 → s.eng.phase = .absorb → exec (.feed n d0) s = .next { s with rsp := some ⟨.ok, 0⟩ }) ∧
    (n ≤ 8#4 → s.eng.phase ≠ .absorb → exec (.feed n d0) s = .next (afterError .invalidState s)) ∧
    (9#4 ≤ n → exec (.feed n d0) s = .next (afterError .illegalCommand s))

/-- 41_hasher_commands.md section 3, the closed form, which the spec marks as derived: with the buffer zero above its count, a
beat on `p` pending bytes is one 128-bit word `T`; below eight bytes it becomes the buffer, else its low half is compressed and
its high half stays pending. So a beat runs COMPRESS at most once. -/
def Obligations.FeedClosedForm : Prop :=
  ∀ (n : BitVec 4) (d0 : Word) (s : State), n ≤ 8#4 → s.eng.phase = .absorb →
    (∀ j, s.eng.nbuf.toNat ≤ j → j ≤ 6 → bufByte s.eng.buf j = 0) →
    let p := s.eng.nbuf.toNat
    let x : Word := d0 &&& BitVec.ofNat 64 (2 ^ (8 * n.toNat) - 1)
    let T : BitVec 128 := s.eng.buf.setWidth 128 ||| (x.setWidth 128 <<< (8 * p))
    (p + n.toNat < 8 → exec (.feed n d0) s = .next { s with
      eng := { s.eng with buf := T.extractLsb' 0 56, nbuf := BitVec.ofNat 3 (p + n.toNat),
                          len := s.eng.len + n.setWidth 64 },
      rsp := some ⟨.ok, 0⟩ }) ∧
    (8 ≤ p + n.toNat → exec (.feed n d0) s = .next { s with
      eng := { s.eng with v := compress (roundsC s.build) s.eng.v (T.extractLsb' 0 64),
                          buf := (T >>> 64).setWidth 56, nbuf := BitVec.ofNat 3 (p + n.toNat - 8),
                          len := s.eng.len + n.setWidth 64 },
      rsp := some ⟨.ok, 0⟩ })

/-- 41_hasher_commands.md section 4: the final word is the length modulo 256 above the pending bytes; they keep their lanes; the
lanes between them and the length byte are zero wherever the buffer is zero above its count. -/
def Obligations.FinalWordLayout : Prop :=
  ∀ e : Engine,
    (finalWord e).toNat = (e.len.toNat % 256) * 2 ^ 56 + e.buf.toNat ∧
    (∀ j, j < 7 → laneByte (finalWord e) j = bufByte e.buf j) ∧
    (laneByte (finalWord e) 7).toNat = e.len.toNat % 256 ∧
    (BufferInv e → ∀ j, e.nbuf.toNat ≤ j → j < 7 → laneByte (finalWord e) j = 0)

/-- 41_hasher_commands.md section 4: FINAL in `ABSORB` compresses the final word, runs FINALCORE, stores and answers the digest and
moves to `DONE`; elsewhere it is refused, and then a digest already there is still read; with `N != 0` it is illegal. -/
def Obligations.FinalAnswersTheDigest : Prop :=
  (∀ s : State, s.eng.phase = .absorb →
    let b : Word := s.eng.len.extractLsb' 0 8 ++ s.eng.buf
    let w := sipRounds (roundsD s.build)
      { compress (roundsC s.build) s.eng.v b with
        v2 := (compress (roundsC s.build) s.eng.v b).v2 ^^^ 0xff }
    let d := w.v0 ^^^ w.v1 ^^^ w.v2 ^^^ w.v3
    exec .final s = .next { s with
      eng := { s.eng with v := w, digest := d, phase := .done }, rsp := some ⟨.ok, d⟩ }) ∧
  (∀ s : State, s.eng.phase ≠ .absorb → exec .final s = .next (afterError .invalidState s)) ∧
  (∀ s t : State, s.eng.phase = .done → exec .final s = .next t →
    exec .rddigest t = .next { t with rsp := some ⟨.ok, s.eng.digest⟩ }) ∧
  (∀ (n : BitVec 4) (d1 d0 : Word) (s : State), n ≠ 0#4 →
    runCommand (packCommand 0x3#4 n d1 d0) s = .next (afterError .illegalCommand s))

/-- R138: STATUS (`OP = 0x4`, `N = 0`) in any state changes no register and answers the phase in bits 1:0, `ERR` in bit 2 and the
variant in bit 3; with `N != 0` it is illegal, and a STATUS after that shows `ERR`. -/
def Obligations.StatusReadsPhaseErrAndVariant : Prop :=
  (∀ (d1 d0 : Word) (s : State), runCommand (packCommand 0x4#4 0#4 d1 d0) s = exec .status s) ∧
  (∀ s : State, ∃ val : Word, exec .status s = .next { s with rsp := some ⟨.ok, val⟩ } ∧
    val.toNat =
      (match s.eng.phase with
        | .uninit => 0
        | .absorb => 1
        | .done => 2) +
      (if s.eng.err then 4 else 0) +
      (match s.build with
        | .sip13 => 0
        | .sip24 => 8)) ∧
  (∀ (n : BitVec 4) (d1 d0 : Word) (s : State), n ≠ 0#4 →
    ∃ t u val, runCommand (packCommand 0x4#4 n d1 d0) s = .next t ∧ t = afterError .illegalCommand s ∧
      exec .status t = .next u ∧ u.rsp = some ⟨.ok, val⟩ ∧ val.getLsbD 2 = true)

/-- R139: RDDIGEST (`OP = 0x5`, `N = 0`) in `DONE` answers `DIGEST` and changes no register, so it may be repeated; in `UNINIT` and
`ABSORB` it is refused; with `N != 0` it is illegal; after FINAL it answers what FINAL answered; after INIT the old digest is
gone. -/
def Obligations.RdDigestAnswersOnlyWhenDone : Prop :=
  (∀ (d1 d0 : Word) (s : State), runCommand (packCommand 0x5#4 0#4 d1 d0) s = exec .rddigest s) ∧
  (∀ s : State, s.eng.phase = .done → exec .rddigest s = .next { s with rsp := some ⟨.ok, s.eng.digest⟩ }) ∧
  (∀ s : State, s.eng.phase ≠ .done → exec .rddigest s = .next (afterError .invalidState s)) ∧
  (∀ (n : BitVec 4) (d1 d0 : Word) (s : State), n ≠ 0#4 →
    runCommand (packCommand 0x5#4 n d1 d0) s = .next (afterError .illegalCommand s)) ∧
  (∀ s t : State, s.eng.phase = .absorb → exec .final s = .next t → exec .rddigest t = .next t) ∧
  (∀ (k0 k1 : Word) (s t : State), exec (.init k0 k1) s = .next t →
    t.eng.digest = 0 ∧ exec .rddigest t = .next (afterError .invalidState t))

/-- 30_encoding.md section 3: every command word, legal or not, gets exactly one response and uses exactly one input; the response
word is code above value, the code one of 0, 1 and 2, and the value of an error 0. So no command faults and none is stuck
(70_reset_and_hazards.md section 4). -/
def Obligations.EveryCommandGetsOneResponse : Prop :=
  ∀ (s : State) (cw : CommandWord) (rest : List Input), s.inputs = .command cw :: rest →
    ∃ t r, step s = .next t ∧ t.rsp = some r ∧ t.inputs = rest ∧
      r.word.extractLsb' 64 4 = r.code.bits ∧ r.word.extractLsb' 0 64 = r.val ∧
      r.code.bits ∈ [0x0#4, 0x1#4, 0x2#4] ∧ (r.code.bits ≠ 0x0#4 → r.val = 0)

/-! ### Frames -/

/-- 10_state.md section 6, column FEED: it writes `V`, `BUF`, `NBUF` and `LEN`, and `ERR` only with an error. -/
def Obligations.FeedFrame : Prop :=
  ∀ (n : BitVec 4) (d0 : Word) (s t : State), exec (.feed n d0) s = .next t →
    t.eng.k0 = s.eng.k0 ∧ t.eng.k1 = s.eng.k1 ∧ t.eng.digest = s.eng.digest ∧ t.eng.phase = s.eng.phase ∧
    t.build = s.build ∧ t.inputs = s.inputs ∧
    (∀ r, t.rsp = some r → r.code = .ok → t.eng.err = s.eng.err) ∧
    (∀ r, t.rsp = some r → r.code ≠ .ok →
      t.eng.v = s.eng.v ∧ t.eng.buf = s.eng.buf ∧ t.eng.nbuf = s.eng.nbuf ∧ t.eng.len = s.eng.len)

/-- 10_state.md section 6, columns INIT and FINAL: INIT leaves `ERR`; FINAL leaves the key, `BUF`, `NBUF` and `LEN`, and `ERR`
without an error; neither touches the build or the inputs still to come. -/
def Obligations.InitAndFinalFrame : Prop :=
  (∀ (k0 k1 : Word) (s t : State), exec (.init k0 k1) s = .next t →
    t.eng.err = s.eng.err ∧ t.build = s.build ∧ t.inputs = s.inputs) ∧
  (∀ s t : State, exec .final s = .next t →
    t.eng.k0 = s.eng.k0 ∧ t.eng.k1 = s.eng.k1 ∧ t.eng.buf = s.eng.buf ∧ t.eng.nbuf = s.eng.nbuf ∧
    t.eng.len = s.eng.len ∧ t.build = s.build ∧ t.inputs = s.inputs ∧
    (∀ r, t.rsp = some r → r.code = .ok → t.eng.err = s.eng.err))

/-- 10_state.md section 6, columns STATUS and RDDIGEST: neither writes a register, but for the `ERR` of a refused RDDIGEST. -/
def Obligations.ReadCommandsFrame : Prop :=
  ∀ (i : Instr) (s t : State), i = .status ∨ i = .rddigest → exec i s = .next t →
    t.build = s.build ∧ t.inputs = s.inputs ∧
    (t.eng = s.eng ∨ (i = .rddigest ∧ s.eng.phase ≠ .done ∧ t.eng = { s.eng with err := true }))

/-- 20_memory.md section 4: INIT twice with one key leaves what one leaves; STATUS and RDDIGEST repeat their answer; FEED of no
bytes in `ABSORB` changes nothing; a second FINAL fails. -/
def Obligations.WhichCommandsAreIdempotent : Prop :=
  (∀ k0 k1 s t u, exec (.init k0 k1) s = .next t → exec (.init k0 k1) t = .next u → u = t) ∧
  (∀ i s t u, i = .status ∨ (i = .rddigest ∧ s.eng.phase = .done) → exec i s = .next t → exec i t = .next u →
    u = t ∧ t.eng = s.eng) ∧
  (∀ d0 s t, s.eng.phase = .absorb → exec (.feed 0#4 d0) s = .next t → t.eng = s.eng) ∧
  (∀ s t, s.eng.phase = .absorb → exec .final s = .next t → exec .final t = .next (afterError .invalidState t))

/-! ### The step -/

/-- 41_hasher_commands.md section 1 and 20_memory.md section 7: when the next input is a word that decodes to a command, the step is
that command's meaning, with the word consumed. -/
def Obligations.StepRunsTheDecodedCommand : Prop :=
  ∀ (s : State) (cw : CommandWord) (rest : List Input) (i : Instr),
    s.inputs = .command cw :: rest → decode cw = .command i → step s = exec i { s with inputs := rest }

/-- 60_exceptions.md section 8: between commands the engine is idle and holds its whole state. That the machine takes a step then, and
that this step leaves the ports as they are too, is the model's choice (notes/assumptions/2.md and 3.md). -/
def Obligations.IdleEngineHoldsItsState : Prop :=
  ∀ s : State, s.inputs = [] → step s = .next s

/-- R57: a sequence of commands is the left fold of single transactions, from any state, and the response to each is that of its
transaction from the fold of the commands before it. -/
def Obligations.CommandSequenceIsAFold : Prop :=
  ∀ (s : State) (cws : List CommandWord),
    (∃ t, runSteps cws.length (s.presentAll cws) = .next t ∧ t.eng = transactAll s.build s.eng cws ∧
      t.inputs = s.inputs ∧ t.build = s.build) ∧
    (∀ k cw, cws[k]? = some cw → ∃ u, runSteps (k + 1) (s.presentAll cws) = .next u ∧
      u.rsp = (transact s.build (transactAll s.build s.eng (cws.take k)) cw).2 ∧ u.rsp ≠ none)

/-- R200: hardware reset puts every register to its reset value, whatever the state and whether or not it cuts a command short; it
gives no response, and the command it cuts short has no effect. -/
def Obligations.HardwareResetFromAnyState : Prop :=
  ∀ (s : State) (cut : Option CommandWord) (rest : List Input), s.inputs = .hardwareReset cut :: rest →
    step s = .next { build := s.build,
                     eng := { k0 := 0, k1 := 0, v := ⟨0, 0, 0, 0⟩, buf := 0, nbuf := 0, len := 0, digest := 0,
                              phase := .uninit, err := false },
                     inputs := rest, rsp := none }

/-- 70_reset_and_hazards.md section 1: what the host sees after reset, for either variant; no step changes the variant; and only
reset clears `ERR` or leads back to `UNINIT`. -/
def Obligations.AfterResetAndOnlyReset : Prop :=
  (∀ s : State, s.eng = State.reset.eng →
    (∃ t val, exec .status s = .next t ∧ t.rsp = some ⟨.ok, val⟩ ∧
      val = match s.build with
        | .sip13 => 0x00
        | .sip24 => 0x08) ∧
    (∀ k0 k1, ∃ t, exec (.init k0 k1) s = .next t ∧ t.rsp = some ⟨.ok, 0⟩) ∧
    (∀ n d0, n ≤ 8#4 → exec (.feed n d0) s = .next (afterError .invalidState s)) ∧
    exec .final s = .next (afterError .invalidState s) ∧
    exec .rddigest s = .next (afterError .invalidState s)) ∧
  (∀ s t : State, step s = .next t → t.build = s.build) ∧
  (∀ s t : State, step s = .next t → (∀ cut rest, s.inputs ≠ .hardwareReset cut :: rest) →
    (s.eng.err = true → t.eng.err = true) ∧ (s.eng.phase ≠ .uninit → t.eng.phase ≠ .uninit))

/-- R28: `ERR` is set by every response that is not `OK`, kept by every command that answers `OK`, and gates nothing: with the
other value of `ERR` every command answers the same code and leaves the same registers, and only STATUS answers another value, in
its bit 2. -/
def Obligations.ErrIsStickyAndGatesNothing : Prop :=
  (∀ cw s t r, runCommand cw s = .next t → t.rsp = some r → t.eng.err = if r.code = .ok then s.eng.err else true) ∧
  (∀ (s : State) (cut : Option CommandWord), ∃ t, runInput (.hardwareReset cut) s = .next t ∧ t.eng.err = false) ∧
  (∀ s t r, exec .status s = .next t → t.rsp = some r → r.val.getLsbD 2 = s.eng.err) ∧
  (∀ (cw : CommandWord) (s t u : State) (b : Bool), runCommand cw s = .next t →
    runCommand cw { s with eng := { s.eng with err := b } } = .next u →
    { t.eng with err := false } = { u.eng with err := false } ∧
    t.rsp.map Rsp.code = u.rsp.map Rsp.code ∧
    (decode cw ≠ .command .status → t.rsp = u.rsp))

/-! ### Invariants of the whole machine -/

/-- 10_state.md section 7: the invariant holds right after reset. -/
def Obligations.ReachableInvAtReset : Prop := ReachableInv State.reset.eng

/-- 10_state.md section 7, items 2 to 6, which the spec marks as derived: from every state that meets the invariant, every step keeps
it, whatever the input. -/
def Obligations.EveryStepKeepsReachableInv : Prop :=
  ∀ s t : State, ReachableInv s.eng → step s = .next t → ReachableInv t.eng

/-- 41_hasher_commands.md section 7, chunk-boundary independence: two sequences of FEED beats with the same bytes, from the same
state in `ABSORB`, end in the same registers, zero-length beats included. -/
def Obligations.ChunkBoundaryIndependence : Prop :=
  ∀ (s : State) (xs ys : List (BitVec 4 × Word)), s.eng.phase = .absorb →
    (∀ b ∈ xs, b.1 ≤ 8#4) → (∀ b ∈ ys, b.1 ≤ 8#4) →
    xs.flatMap (fun b => beatBytes b.1 b.2) = ys.flatMap (fun b => beatBytes b.1 b.2) →
    ∃ t u,
      runSteps xs.length (s.presentAll (xs.map (fun b => encode (.feed b.1 b.2)))) = .next t ∧
      runSteps ys.length (s.presentAll (ys.map (fun b => encode (.feed b.1 b.2)))) = .next u ∧
      t.eng = u.eng ∧ t.eng.phase = .absorb

/-- 60_exceptions.md section 2 and 41_hasher_commands.md section 7: whatever words are sent in `ABSORB`, legal or not, as long as
none is a legal INIT or FINAL, the registers but `ERR` end as the bytes of the successful FEEDs make them. -/
def Obligations.ErrorsDoNotDamageTheStream : Prop :=
  ∀ (s : State) (cws : List CommandWord), s.eng.phase = .absorb → (∀ cw ∈ cws, endsStream cw = false) →
    ∃ t, runSteps cws.length (s.presentAll cws) = .next t ∧
      { t.eng with err := false } =
        { absorbBytes (roundsC s.build) (cws.flatMap fedBytes) s.eng with
          len := s.eng.len + BitVec.ofNat 64 (cws.flatMap fedBytes).length, err := false }

/-- 41_hasher_commands.md section 7, functional correctness: after INIT and FEED beats whose bytes are `S`, from any state at all,
the registers hold what SIPHASH's loop holds, and a FINAL then answers SIPHASH of the key and `S`. -/
def Obligations.HasherComputesSipHash : Prop :=
  ∀ (s : State) (k0 k1 : Word) (beats : List (BitVec 4 × Word)), (∀ b ∈ beats, b.1 ≤ 8#4) →
    let S := beats.flatMap (fun b => beatBytes b.1 b.2)
    let cws := encode (.init k0 k1) :: beats.map (fun b => encode (.feed b.1 b.2))
    ∃ t u,
      runSteps cws.length (s.presentAll cws) = .next t ∧
      t.eng.v = absorbWords s.build k0 k1 S ∧
      (∀ j, j < S.length % 8 → (tailBytes S)[j]? = some (bufByte t.eng.buf j)) ∧
      t.eng.nbuf.toNat = S.length % 8 ∧ t.eng.len.toNat = S.length % 2 ^ 64 ∧ t.eng.phase = .absorb ∧
      exec .final t = .next u ∧
      u.rsp = some ⟨.ok, sipHash s.build k0 k1 S⟩ ∧ u.eng.digest = sipHash s.build k0 k1 S

/-- 41_hasher_commands.md sections 6 and 7: `HASH k0, k1, S` from any state ends in `DONE` with the digest of SIPHASH, every response
on the way is `OK`, and `ERR` is as before. -/
def Obligations.HashPseudoCommandNeverFails : Prop :=
  ∀ (s : State) (k0 k1 : Word) (S : List Byte),
    let cws := (hashExpansion k0 k1 S).map encode
    (∃ t, runSteps cws.length (s.presentAll cws) = .next t ∧ t.eng.phase = .done ∧
      t.eng.digest = sipHash s.build k0 k1 S ∧ t.rsp = some ⟨.ok, sipHash s.build k0 k1 S⟩ ∧
      t.eng.err = s.eng.err ∧ t.inputs = s.inputs) ∧
    (∀ k, k < cws.length → ∃ u, runSteps (k + 1) (s.presentAll cws) = .next u ∧ u.rsp ≠ none ∧ NoMisuse u)

/-- 41_hasher_commands.md section 7, determinism: two engines of one variant, in whatever states, given one key and the same bytes in
whatever beats, answer the same response to FINAL. -/
def Obligations.EqualKeyAndBytesGiveEqualDigest : Prop :=
  ∀ (s s' : State) (k0 k1 : Word) (xs ys : List (BitVec 4 × Word)), s.build = s'.build →
    (∀ b ∈ xs, b.1 ≤ 8#4) → (∀ b ∈ ys, b.1 ≤ 8#4) →
    xs.flatMap (fun b => beatBytes b.1 b.2) = ys.flatMap (fun b => beatBytes b.1 b.2) →
    let run := fun (beats : List (BitVec 4 × Word)) =>
      encode (.init k0 k1) :: (beats.map (fun b => encode (.feed b.1 b.2)) ++ [encode .final])
    ∃ t u,
      runSteps (run xs).length (s.presentAll (run xs)) = .next t ∧
      runSteps (run ys).length (s'.presentAll (run ys)) = .next u ∧
      t.rsp = u.rsp ∧ (∃ d, t.rsp = some ⟨.ok, d⟩)

/-- 41_hasher_commands.md section 7, length is part of the hash: appending zero bytes changes the final word, unless their number is
a multiple of 256, and then it changes the number of absorbed words. -/
def Obligations.AppendedZeroBytesAreSeparated : Prop :=
  ∀ (S : List Byte) (k : Nat), 0 < k →
    (k % 256 ≠ 0 → streamFinalWord S ≠ streamFinalWord (S ++ List.replicate k 0#8)) ∧
    (k % 256 = 0 → S.length / 8 < (S ++ List.replicate k 0#8).length / 8)

/-- 10_state.md section 2: no command reads `K0` or `K1`: with other values there, every command answers the same and leaves the
same registers. -/
def Obligations.KeyRegistersAreReadByNothing : Prop :=
  ∀ (cw : CommandWord) (s t u : State) (k0 k1 : Word), runCommand cw s = .next t →
    runCommand cw { s with eng := { s.eng with k0 := k0, k1 := k1 } } = .next u →
    t.rsp = u.rsp ∧ { t.eng with k0 := 0, k1 := 0 } = { u.eng with k0 := 0, k1 := 0 }

/-- 10_state.md section 6: apart from FINAL no response depends on the key, the state words, the buffer or the length: two engines
that agree on phase, error flag, digest and variant answer every other command alike. -/
def Obligations.InternalsReachNoResponse : Prop :=
  ∀ (cw : CommandWord) (s s' t t' : State), decode cw ≠ .command .final →
    s.build = s'.build → s.eng.phase = s'.eng.phase → s.eng.err = s'.eng.err → s.eng.digest = s'.eng.digest →
    runCommand cw s = .next t → runCommand cw s' = .next t' → t.rsp = t'.rsp

/-- 40_prf_core.md section 9: which commands are accepted, and the phase and error flag that follow, depend on the header, the phase
and the error flag only, never on key, state words, buffer or data bytes. -/
def Obligations.ControlIsIndependentOfData : Prop :=
  ∀ (cw cw' : CommandWord) (s s' t t' : State), headerByte cw = headerByte cw' →
    s.eng.phase = s'.eng.phase → s.eng.err = s'.eng.err →
    runCommand cw s = .next t → runCommand cw' s' = .next t' →
    t.rsp.map Rsp.code = t'.rsp.map Rsp.code ∧ t.eng.phase = t'.eng.phase ∧ t.eng.err = t'.eng.err

/-- 30_encoding.md section 6: FEEDS expands to well-formed beats whose bytes are the sequence, one for each whole group of eight and
one for a rest if there is one; for the empty sequence to none. -/
def Obligations.FeedsExpansionCarriesTheBytes : Prop :=
  ∀ S : List Byte,
    (∀ i ∈ feedsExpansion S, i.wellFormed = true) ∧
    ((feedsExpansion S).map encode).flatMap fedBytes = S ∧
    (feedsExpansion S).length = S.length / 8 + (if S.length % 8 = 0 then 0 else 1) ∧
    (∀ i ∈ feedsExpansion S, ∃ n d0, i = .feed n d0)

/-- 60_exceptions.md section 7: instances are independent copies: a step of one leaves every other as it was, and steps of two
different ones commute. -/
def Obligations.EnginesAreIndependent : Prop :=
  ∀ (engines : List State) (j k : Nat), j ≠ k →
    (stepInstance k engines)[j]? = engines[j]? ∧
    (∀ s t, engines[k]? = some s → step s = .next t → (stepInstance k engines)[k]? = some t) ∧
    stepInstance j (stepInstance k engines) = stepInstance k (stepInstance j engines)
end

