-- ==== Sys2Proof/Laws/Encoding.lean ====
section
/-! SUPPORT. The fields of a packed command word, so that no proof about a word unfolds the concatenation. -/

namespace Sys2Proof

/-- One bit of a packed word: which field it lies in (R70). -/
theorem packCommand_getLsbD (op n : BitVec 4) (d1 d0 : Word) (i : Nat) :
    (packCommand op n d1 d0).getLsbD i =
      if i < 64 then d0.getLsbD i
      else if i < 128 then d1.getLsbD (i - 64)
      else if i < 132 then n.getLsbD (i - 128)
      else op.getLsbD (i - 132) := by
  change BitVec.getLsbD (w := 4 + 4 + 64 + 64) (op ++ n ++ d1 ++ d0) i = _
  rw [BitVec.getLsbD_append, BitVec.getLsbD_append, BitVec.getLsbD_append]
  simp only [Nat.sub_sub, Nat.reduceAdd, show i - 64 < 64 ↔ i < 128 by omega]
  by_cases h0 : i < 64
  · simp [h0]
  · by_cases h1 : i < 128
    · simp [h0, h1]
    · by_cases h2 : i < 132
      · simp [h0, h1, h2, show i - 128 < 4 by omega]
      · simp [h0, h1, h2, show ¬ i - 128 < 4 by omega]

section Pack
variable (op n : BitVec 4) (d1 d0 : Word)

@[simp] theorem opField_pack : opField (packCommand op n d1 d0) = op := by
  apply BitVec.eq_of_getLsbD_eq
  intro i hi
  rw [opField, BitVec.getLsbD_extractLsb', packCommand_getLsbD]
  simp [hi, show ¬ 132 + i < 64 by omega, show ¬ 132 + i < 128 by omega, show ¬ 132 + i < 132 by omega]

@[simp] theorem nField_pack : nField (packCommand op n d1 d0) = n := by
  apply BitVec.eq_of_getLsbD_eq
  intro i hi
  rw [nField, BitVec.getLsbD_extractLsb', packCommand_getLsbD]
  simp [hi, show ¬ 128 + i < 64 by omega, show ¬ 128 + i < 128 by omega, show 128 + i < 132 by omega]

@[simp] theorem d1Field_pack : d1Field (packCommand op n d1 d0) = d1 := by
  apply BitVec.eq_of_getLsbD_eq
  intro i hi
  rw [d1Field, BitVec.getLsbD_extractLsb', packCommand_getLsbD]
  simp [hi, show 64 + i < 128 by omega]

@[simp] theorem d0Field_pack : d0Field (packCommand op n d1 d0) = d0 := by
  apply BitVec.eq_of_getLsbD_eq
  intro i hi
  rw [d0Field, BitVec.getLsbD_extractLsb', packCommand_getLsbD]
  simp [hi]

end Pack

/-- The header byte is opcode above count (R70). -/
theorem headerByte_eq (cw : CommandWord) : headerByte cw = opField cw ++ nField cw := by
  apply BitVec.eq_of_getLsbD_eq
  intro i hi
  change _ = BitVec.getLsbD (w := 4 + 4) (opField cw ++ nField cw) i
  rw [BitVec.getLsbD_append, headerByte, opField, nField]
  simp only [BitVec.getLsbD_extractLsb']
  by_cases h : i < 4
  · simp [h, hi]
  · simp [h, hi, show i - 4 < 4 by omega, show 132 + (i - 4) = 128 + i by omega]

@[simp] theorem headerByte_pack (op n : BitVec 4) (d1 d0 : Word) :
    headerByte (packCommand op n d1 d0) = op ++ n := by
  rw [headerByte_eq, opField_pack, nField_pack]

/-- A word is its four fields (R70). -/
theorem pack_fields (cw : CommandWord) : packCommand (opField cw) (nField cw) (d1Field cw) (d0Field cw) = cw := by
  apply BitVec.eq_of_getLsbD_eq
  intro i hi
  rw [packCommand_getLsbD, opField, nField, d1Field, d0Field]
  simp only [BitVec.getLsbD_extractLsb']
  by_cases h0 : i < 64
  · simp [h0]
  · by_cases h1 : i < 128
    · simp [h0, h1, show i - 64 < 64 by omega, show 64 + (i - 64) = i by omega]
    · by_cases h2 : i < 132
      · simp [h0, h1, h2, show i - 128 < 4 by omega, show 128 + (i - 128) = i by omega]
      · simp [h0, h1, h2, show i - 132 < 4 by omega, show 132 + (i - 132) = i by omega]

end Sys2Proof
end

