-- ==== Sys2Proof/Laws/State.lean ====
section
/-! SUPPORT. One lemma per field per update, so that no proof unfolds a record update. -/

namespace Sys2Proof.Machine

section SetErr
variable (e : Engine)
@[simp] theorem setErr_k0 : e.setErr.k0 = e.k0 := rfl
@[simp] theorem setErr_k1 : e.setErr.k1 = e.k1 := rfl
@[simp] theorem setErr_v : e.setErr.v = e.v := rfl
@[simp] theorem setErr_buf : e.setErr.buf = e.buf := rfl
@[simp] theorem setErr_nbuf : e.setErr.nbuf = e.nbuf := rfl
@[simp] theorem setErr_len : e.setErr.len = e.len := rfl
@[simp] theorem setErr_digest : e.setErr.digest = e.digest := rfl
@[simp] theorem setErr_phase : e.setErr.phase = e.phase := rfl
@[simp] theorem setErr_err : e.setErr.err = true := rfl
end SetErr

section InitEngine
variable (k0 k1 : Word) (e : Engine)
@[simp] theorem initEngine_k0 : (initEngine k0 k1 e).k0 = k0 := rfl
@[simp] theorem initEngine_k1 : (initEngine k0 k1 e).k1 = k1 := rfl
@[simp] theorem initEngine_v : (initEngine k0 k1 e).v = initState k0 k1 := rfl
@[simp] theorem initEngine_buf : (initEngine k0 k1 e).buf = 0 := rfl
@[simp] theorem initEngine_nbuf : (initEngine k0 k1 e).nbuf = 0 := rfl
@[simp] theorem initEngine_len : (initEngine k0 k1 e).len = 0 := rfl
@[simp] theorem initEngine_digest : (initEngine k0 k1 e).digest = 0 := rfl
@[simp] theorem initEngine_phase : (initEngine k0 k1 e).phase = .absorb := rfl
@[simp] theorem initEngine_err : (initEngine k0 k1 e).err = e.err := rfl
end InitEngine

section FinalEngine
variable (build : Variant) (e : Engine)
@[simp] theorem finalEngine_k0 : (finalEngine build e).k0 = e.k0 := rfl
@[simp] theorem finalEngine_k1 : (finalEngine build e).k1 = e.k1 := rfl
@[simp] theorem finalEngine_v : (finalEngine build e).v = (finalResult build e).1 := rfl
@[simp] theorem finalEngine_buf : (finalEngine build e).buf = e.buf := rfl
@[simp] theorem finalEngine_nbuf : (finalEngine build e).nbuf = e.nbuf := rfl
@[simp] theorem finalEngine_len : (finalEngine build e).len = e.len := rfl
@[simp] theorem finalEngine_digest : (finalEngine build e).digest = (finalResult build e).2 := rfl
@[simp] theorem finalEngine_phase : (finalEngine build e).phase = .done := rfl
@[simp] theorem finalEngine_err : (finalEngine build e).err = e.err := rfl
end FinalEngine

section Present
variable (cw : CommandWord) (cws : List CommandWord) (s : State)
@[simp] theorem present_build : (s.present cw).build = s.build := rfl
@[simp] theorem present_eng : (s.present cw).eng = s.eng := rfl
@[simp] theorem present_inputs : (s.present cw).inputs = .command cw :: s.inputs := rfl
@[simp] theorem present_rsp : (s.present cw).rsp = s.rsp := rfl
@[simp] theorem presentAll_build : (s.presentAll cws).build = s.build := rfl
@[simp] theorem presentAll_eng : (s.presentAll cws).eng = s.eng := rfl
@[simp] theorem presentAll_inputs : (s.presentAll cws).inputs = cws.map Input.command ++ s.inputs := rfl
@[simp] theorem presentAll_rsp : (s.presentAll cws).rsp = s.rsp := rfl
@[simp] theorem presentAll_nil : s.presentAll [] = s := rfl
theorem presentAll_cons : s.presentAll (cw :: cws) = (s.presentAll cws).present cw := rfl
end Present

end Sys2Proof.Machine
end

