-- ==== Sys2Proof/Laws/Ops.lean ====
section
/-! SUPPORT. One lemma for each shared operation: everything it can do. -/

namespace Sys2Proof.Machine

/-! ### Ending a command -/

theorem respond_next {e : Engine} {val : Word} {s t : State} (h : respond e val s = .next t) :
    t = { s with eng := e, rsp := some ⟨.ok, val⟩ } := by
  cases h; rfl

theorem raise_next {error : CommandError} {s t : State} (h : raise error s = .next t) :
    t = { s with eng := s.eng.setErr, rsp := some ⟨error.code, 0⟩ } := by
  cases h; rfl

theorem hardwareReset_next {s t : State} (h : hardwareReset s = .next t) :
    t = { s with eng := Engine.reset, rsp := none } := by
  cases h; rfl

/-- The phase check either lets the command run or is the error `INVALID_STATE`. -/
theorem ifAccepted_cases (i : Instr) (s : State) (run : Result) :
    (accepts i s.eng.phase = true ∧ ifAccepted i s run = run) ∨
    (accepts i s.eng.phase = false ∧ ifAccepted i s run = raise .invalidState s) := by
  unfold ifAccepted
  cases h : accepts i s.eng.phase <;> simp

@[simp] theorem ifAccepted_of_accepts {i : Instr} {s : State} {run : Result}
    (h : accepts i s.eng.phase = true) : ifAccepted i s run = run := by
  simp [ifAccepted, h]

theorem ifAccepted_of_not_accepts {i : Instr} {s : State} {run : Result}
    (h : accepts i s.eng.phase = false) : ifAccepted i s run = raise .invalidState s := by
  simp [ifAccepted, h]

@[simp] theorem accepts_init (k0 k1 : Word) (p : Phase) : accepts (.init k0 k1) p = true := rfl

@[simp] theorem accepts_status (p : Phase) : accepts .status p = true := rfl

@[simp] theorem accepts_feed (n : BitVec 4) (d0 : Word) (p : Phase) :
    accepts (.feed n d0) p = true ↔ p = .absorb := by
  cases p <;> simp [accepts]

@[simp] theorem accepts_final (p : Phase) : accepts .final p = true ↔ p = .absorb := by
  cases p <;> simp [accepts]

@[simp] theorem accepts_rddigest (p : Phase) : accepts .rddigest p = true ↔ p = .done := by
  cases p <;> simp [accepts]

/-! ### Absorbing bytes -/

/-- The two cases of R133. -/
theorem absorbByte_cases (c : Nat) (e : Engine) (x : Byte) :
    (e.nbuf.toNat < 7 ∧
      absorbByte c e x = { e with buf := writeBufByte e.buf e.nbuf.toNat x, nbuf := e.nbuf + 1 }) ∨
    (e.nbuf.toNat = 7 ∧
      absorbByte c e x = { e with v := compress c e.v (x ++ e.buf), buf := 0, nbuf := 0 }) := by
  by_cases h : e.nbuf.toNat < 7
  · exact .inl ⟨h, by simp [absorbByte, h]⟩
  · exact .inr ⟨by omega, by simp [absorbByte, h]⟩

/-- ABSORB_BYTE writes `V`, `BUF` and `NBUF` and nothing else (R133). -/
theorem absorbByte_frame (c : Nat) (e : Engine) (x : Byte) :
    (absorbByte c e x).k0 = e.k0 ∧ (absorbByte c e x).k1 = e.k1 ∧ (absorbByte c e x).len = e.len ∧
    (absorbByte c e x).digest = e.digest ∧ (absorbByte c e x).phase = e.phase ∧
    (absorbByte c e x).err = e.err := by
  obtain ⟨-, h⟩ | ⟨-, h⟩ := absorbByte_cases c e x <;> simp [h]

/-- Each byte adds one to `NBUF` modulo 8 (R32, R133). -/
theorem absorbByte_nbuf (c : Nat) (e : Engine) (x : Byte) :
    (absorbByte c e x).nbuf.toNat = (e.nbuf.toNat + 1) % 8 := by
  obtain ⟨hlt, h⟩ | ⟨heq, h⟩ := absorbByte_cases c e x
  · simp [h, BitVec.toNat_add]
  · simp [h, heq]

@[simp] theorem absorbBytes_nil (c : Nat) (e : Engine) : absorbBytes c [] e = e := rfl

@[simp] theorem absorbBytes_cons (c : Nat) (x : Byte) (xs : List Byte) (e : Engine) :
    absorbBytes c (x :: xs) e = absorbBytes c xs (absorbByte c e x) := rfl

theorem absorbBytes_append (c : Nat) (xs ys : List Byte) (e : Engine) :
    absorbBytes c (xs ++ ys) e = absorbBytes c ys (absorbBytes c xs e) := by
  simp [absorbBytes]

/-- Absorbing bytes writes `V`, `BUF` and `NBUF` and nothing else. -/
theorem absorbBytes_frame (c : Nat) (xs : List Byte) (e : Engine) :
    (absorbBytes c xs e).k0 = e.k0 ∧ (absorbBytes c xs e).k1 = e.k1 ∧ (absorbBytes c xs e).len = e.len ∧
    (absorbBytes c xs e).digest = e.digest ∧ (absorbBytes c xs e).phase = e.phase ∧
    (absorbBytes c xs e).err = e.err := by
  induction xs generalizing e with
  | nil => simp
  | cons x xs ih =>
    obtain ⟨h1, h2, h3, h4, h5, h6⟩ := absorbByte_frame c e x
    simpa [h1, h2, h3, h4, h5, h6] using ih (absorbByte c e x)

theorem absorbBytes_nbuf (c : Nat) (xs : List Byte) (e : Engine) :
    (absorbBytes c xs e).nbuf.toNat = (e.nbuf.toNat + xs.length) % 8 := by
  induction xs generalizing e with
  | nil => simp; omega
  | cons x xs ih => simp only [absorbBytes_cons, ih, absorbByte_nbuf, List.length_cons]; omega

/-! ### Byte lanes -/

@[simp] theorem beatBytes_length (n : BitVec 4) (d0 : Word) : (beatBytes n d0).length = n.toNat := by
  simp [beatBytes]

theorem beatBytes_getElem? (n : BitVec 4) (d0 : Word) {i : Nat} (h : i < n.toNat) :
    (beatBytes n d0)[i]? = some (laneByte d0 i) := by
  simp [beatBytes, h]

/-- One bit of a pending byte. -/
theorem bufByte_getLsbD (buf : BitVec 56) (j i : Nat) :
    (bufByte buf j).getLsbD i = (decide (i < 8) && buf.getLsbD (8 * j + i)) := by
  simp [bufByte, BitVec.getLsbD_extractLsb']

/-- One bit of the buffer after a byte is written. -/
theorem writeBufByte_getLsbD (buf : BitVec 56) (j : Nat) (x : Byte) (i : Nat) :
    (writeBufByte buf j x).getLsbD i =
      (decide (i < 56) &&
        if 8 * j ≤ i ∧ i < 8 * j + 8 then x.getLsbD (i - 8 * j) else buf.getLsbD i) := by
  have hff : ∀ k, (0xff#56).getLsbD k = decide (k < 8) := by
    intro k
    by_cases hk : k < 56
    · have : ∀ k : Fin 56, (0xff#56).getLsbD k = decide (k.val < 8) := by decide
      exact this ⟨k, hk⟩
    · rw [BitVec.getLsbD_of_ge _ _ (by omega)]; simp; omega
  by_cases hi : i < 56
  · simp only [writeBufByte, BitVec.getLsbD_or, BitVec.getLsbD_and, BitVec.getLsbD_not, BitVec.getLsbD_shiftLeft,
      BitVec.getLsbD_setWidth, hff, hi, decide_true, Bool.true_and]
    by_cases hlo : i < 8 * j
    · simp [hlo, show ¬ 8 * j ≤ i by omega]
    · by_cases hhi : i < 8 * j + 8
      · simp [hlo, hhi, show 8 * j ≤ i by omega, show i - 8 * j < 8 by omega, show i - 8 * j < 56 by omega]
      · simp [hlo, hhi, show ¬ i - 8 * j < 8 by omega, BitVec.getLsbD_of_ge x (i - 8 * j) (by omega)]
  · rw [BitVec.getLsbD_of_ge _ _ (by omega)]; simp [hi]

/-- Writing pending byte `j` gives it the byte and leaves the others (R133). -/
theorem bufByte_writeBufByte (buf : BitVec 56) (j k : Nat) (x : Byte) (hj : j < 7) :
    bufByte (writeBufByte buf j x) k = if k = j then x else bufByte buf k := by
  apply BitVec.eq_of_getLsbD_eq
  intro i hi
  rw [bufByte_getLsbD, writeBufByte_getLsbD]
  by_cases hk : k = j
  · subst hk
    simp [hi, show 8 * k + i < 56 by omega]
  · have : ¬ (8 * j ≤ 8 * k + i ∧ 8 * k + i < 8 * j + 8) := by omega
    simp only [hk, this, if_false, bufByte_getLsbD]
    by_cases h56 : 8 * k + i < 56
    · simp [h56]
    · simp [BitVec.getLsbD_of_ge buf _ (Nat.le_of_not_lt h56)]

end Sys2Proof.Machine
end

