-- ==== Sys2Proof/Laws/PerInstr.lean ====
section
/-! SUPPORT. Statements made per instruction: that the encoder's word matches the row of spec/opcode_table.json. -/

namespace Sys2Proof.Laws.TableRow

/-- The `match` of an instruction's row. -/
def rowMatch : Instr → CommandWord
  | .init _ _ => 0x1000000000000000000000000000000000#136
  | .feed _ _ => 0x2000000000000000000000000000000000#136
  | .final => 0x3000000000000000000000000000000000#136
  | .status => 0x4000000000000000000000000000000000#136
  | .rddigest => 0x5000000000000000000000000000000000#136

/-- The `mask` of an instruction's row. -/
def rowMask : Instr → CommandWord
  | .init _ _ => 0xff00000000000000000000000000000000#136
  | .feed _ _ => 0xf000000000000000000000000000000000#136
  | .final => 0xff00000000000000000000000000000000#136
  | .status => 0xff00000000000000000000000000000000#136
  | .rddigest => 0xff00000000000000000000000000000000#136

/-- The encoder's word of an instruction agrees with its row's `match` on every bit of its row's `mask`. -/
def Statement (i : Instr) : Prop := encode i &&& rowMask i = rowMatch i

/-- A mask that lies in the header keeps the masked header and nothing else. -/
theorem pack_and_headerMask (op n mop mn : BitVec 4) (d1 d0 : Word) :
    packCommand op n d1 d0 &&& packCommand mop mn 0#64 0#64 = packCommand (op &&& mop) (n &&& mn) 0#64 0#64 := by
  apply BitVec.eq_of_getLsbD_eq
  intro i hi
  rw [BitVec.getLsbD_and]
  simp only [packCommand_getLsbD]
  split
  · simp
  · split
    · simp
    · split <;> simp

theorem init (k0 k1 : Word) : Statement (.init k0 k1) := by
  have h := pack_and_headerMask 0x1#4 0#4 0xf#4 0xf#4 k1 k0
  exact h

theorem feed (n : BitVec 4) (d0 : Word) : Statement (.feed n d0) := by
  have h := pack_and_headerMask 0x2#4 n 0xf#4 0#4 0#64 d0
  rw [BitVec.and_zero] at h
  exact h

theorem final : Statement .final := by unfold Statement; decide

theorem status : Statement .status := by unfold Statement; decide

theorem rddigest : Statement .rddigest := by unfold Statement; decide

end Sys2Proof.Laws.TableRow
end

