-- ==== Sys2Proof/Laws/PrfCore.lean ====
section
/-! SUPPORT. The small lemmas of the datapath functions. -/

namespace Sys2Proof.Machine

theorem rotl64_eq_rotateLeft (x : Word) {n : Nat} (h : n < 64) : rotl64 x n = x.rotateLeft n := by
  rw [BitVec.rotateLeft_def, Nat.mod_eq_of_lt h, rotl64]

/-- Rotating back undoes a rotation. -/
theorem rotl64_rotl64 (x : Word) {a b : Nat} (ha : 0 < a) (hb : 0 < b) (hab : a + b = 64) :
    rotl64 (rotl64 x a) b = x := by
  apply BitVec.eq_of_getLsbD_eq
  intro i hi
  rw [rotl64_eq_rotateLeft _ (by omega), rotl64_eq_rotateLeft _ (by omega)]
  simp only [BitVec.getLsbD_rotateLeft, Nat.mod_eq_of_lt (show a < 64 by omega),
    Nat.mod_eq_of_lt (show b < 64 by omega)]
  by_cases hlt : i < b
  · simp [hlt, hi, show ¬ 64 - b + i < a by omega, show 64 - b + i < 64 by omega,
      show 64 - b + i - a = i by omega]
  · simp [hlt, hi, show i - b < a by omega, show 64 - a + (i - b) = i by omega]

theorem xor64_xor64 (x y : Word) : xor64 (xor64 x y) y = x := by
  rw [xor64, xor64, BitVec.xor_assoc, BitVec.xor_self, BitVec.xor_zero]

theorem add64_sub (x y : Word) : add64 x y - y = x :=
  BitVec.add_sub_cancel x y

theorem sub_add64 (x y : Word) : add64 (x - y) y = x :=
  BitVec.sub_add_cancel x y

@[simp] theorem sipRounds_zero (v : VState) : sipRounds 0 v = v := rfl

theorem sipRounds_succ (n : Nat) (v : VState) : sipRounds (n + 1) v = sipRounds n (sipRound v) := rfl

/-- The zero state is a fixed point of the round, so of any number of rounds (R104). -/
theorem sipRounds_zeroState (n : Nat) : sipRounds n ⟨0, 0, 0, 0⟩ = ⟨0, 0, 0, 0⟩ := by
  induction n with
  | zero => rfl
  | succ n ih => rw [sipRounds_succ, show sipRound ⟨0, 0, 0, 0⟩ = ⟨0, 0, 0, 0⟩ by decide, ih]

theorem finalCore_digest (d : Nat) (v : VState) : (finalCore d v).2 = foldDigest (finalCore d v).1 := rfl

end Sys2Proof.Machine
end

