-- ==== Sys2Proof/Laws/Step.lean ====
section
/-! SUPPORT. What each command can answer, said once, and how the step and runs of steps unfold. -/

namespace Sys2Proof.Machine

/-! ### The meanings -/

theorem exec_init (k0 k1 : Word) (s : State) :
    exec (.init k0 k1) s = respond (initEngine k0 k1 s.eng) 0 s := rfl

theorem exec_status (s : State) :
    exec .status s = respond s.eng ((statusByte s.build s.eng).setWidth 64) s := rfl

/-- A FEED of a legal count runs, or is refused by phase. -/
theorem exec_feed_cases (n : BitVec 4) (d0 : Word) (s : State) (hn : n ≤ 8#4) :
    (s.eng.phase = .absorb ∧ exec (.feed n d0) s = respond (feedEngine s.build n d0 s.eng) 0 s) ∨
    (s.eng.phase ≠ .absorb ∧ exec (.feed n d0) s = raise .invalidState s) := by
  by_cases h : s.eng.phase = .absorb <;>
    simp [exec, execFeed, hn, ifAccepted, h]

theorem exec_feed_illegal (n : BitVec 4) (d0 : Word) (s : State) (hn : ¬ n ≤ 8#4) :
    exec (.feed n d0) s = raise .illegalCommand s := by
  simp [exec, execFeed, hn]

theorem exec_final_cases (s : State) :
    (s.eng.phase = .absorb ∧
      exec .final s = respond (finalEngine s.build s.eng) (finalResult s.build s.eng).2 s) ∨
    (s.eng.phase ≠ .absorb ∧ exec .final s = raise .invalidState s) := by
  by_cases h : s.eng.phase = .absorb <;> simp [exec, execFinal, ifAccepted, h]

theorem exec_rddigest_cases (s : State) :
    (s.eng.phase = .done ∧ exec .rddigest s = respond s.eng s.eng.digest s) ∨
    (s.eng.phase ≠ .done ∧ exec .rddigest s = raise .invalidState s) := by
  by_cases h : s.eng.phase = .done <;> simp [exec, execRddigest, ifAccepted, h]

/-- FEED writes `V`, `BUF`, `NBUF` and `LEN` and nothing else (R31). -/
theorem feedEngine_frame (build : Variant) (n : BitVec 4) (d0 : Word) (e : Engine) :
    (feedEngine build n d0 e).k0 = e.k0 ∧ (feedEngine build n d0 e).k1 = e.k1 ∧
    (feedEngine build n d0 e).digest = e.digest ∧ (feedEngine build n d0 e).phase = e.phase ∧
    (feedEngine build n d0 e).err = e.err := by
  obtain ⟨h1, h2, -, h4, h5, h6⟩ := absorbBytes_frame (roundsC build) (beatBytes n d0) e
  exact ⟨h1, h2, h4, h5, h6⟩

@[simp] theorem feedEngine_len (build : Variant) (n : BitVec 4) (d0 : Word) (e : Engine) :
    (feedEngine build n d0 e).len = e.len + n.setWidth 64 := rfl

/-- Every meaning ends in a response or in an error: there are no other outcomes (R131). -/
theorem exec_responds_or_raises (i : Instr) (s : State) :
    (∃ e val, exec i s = respond e val s) ∨ (∃ error, exec i s = raise error s) := by
  cases i with
  | init k0 k1 => exact .inl ⟨_, _, exec_init k0 k1 s⟩
  | feed n d0 =>
    by_cases hn : n ≤ 8#4
    · obtain ⟨-, h⟩ | ⟨-, h⟩ := exec_feed_cases n d0 s hn
      · exact .inl ⟨_, _, h⟩
      · exact .inr ⟨_, h⟩
    · exact .inr ⟨_, exec_feed_illegal n d0 s hn⟩
  | final =>
    obtain ⟨-, h⟩ | ⟨-, h⟩ := exec_final_cases s
    · exact .inl ⟨_, _, h⟩
    · exact .inr ⟨_, h⟩
  | status => exact .inl ⟨_, _, exec_status s⟩
  | rddigest =>
    obtain ⟨-, h⟩ | ⟨-, h⟩ := exec_rddigest_cases s
    · exact .inl ⟨_, _, h⟩
    · exact .inr ⟨_, h⟩

/-! ### Commands and steps -/

theorem runCommand_legal {cw : CommandWord} {i : Instr} (h : decode cw = .command i) (s : State) :
    runCommand cw s = exec i s := by
  simp [runCommand, h]

theorem runCommand_illegal {cw : CommandWord} {why : DecodeRefusal} (h : decode cw = .illegal why) (s : State) :
    runCommand cw s = raise .illegalCommand s := by
  simp [runCommand, h]

theorem step_idle {s : State} (h : s.inputs = []) : step s = .next s := by
  simp [step, h]

theorem step_input {s : State} {x : Input} {rest : List Input} (h : s.inputs = x :: rest) :
    step s = runInput x { s with inputs := rest } := by
  simp [step, h]

/-- Presenting a word and taking a step runs that word from the state as it was. -/
theorem step_present (cw : CommandWord) (s : State) : step (s.present cw) = runCommand cw s := rfl

/-! ### Runs -/

@[simp] theorem runSteps_zero (s : State) : runSteps 0 s = .next s := rfl

theorem runSteps_succ {s t : State} (k : Nat) (h : step s = .next t) : runSteps (k + 1) s = runSteps k t := by
  have hcore : Sys2Proof.core.step s = .next t := h
  simp only [runSteps, Host.Core.run, hcore]
  rfl

end Sys2Proof.Machine
end

