-- ==== Sys2Proof/Laws/Words.lean ====
section
/-! SUPPORT. The bits of the words the model builds by concatenation: the final word, the group word of ABSORB_BYTE and the response
word. -/

namespace Sys2Proof.Machine

/-- One bit of a byte above the 56-bit buffer (R133, R136). -/
theorem byteOverBuf_getLsbD (x : Byte) (buf : BitVec 56) (i : Nat) :
    BitVec.getLsbD (w := 64) (x ++ buf) i = if i < 56 then buf.getLsbD i else x.getLsbD (i - 56) :=
  BitVec.getLsbD_append

theorem finalWord_getLsbD (e : Engine) (i : Nat) :
    (finalWord e).getLsbD i = if i < 56 then e.buf.getLsbD i else (e.len.setWidth 8).getLsbD (i - 56) :=
  byteOverBuf_getLsbD _ _ _

theorem byteOverBuf_toNat (x : Byte) (buf : BitVec 56) :
    BitVec.toNat (w := 64) (x ++ buf) = x.toNat * 2 ^ 56 + buf.toNat := by
  change BitVec.toNat (w := 8 + 56) (x ++ buf) = _
  rw [BitVec.toNat_append, Nat.shiftLeft_eq, Nat.mul_comm, Nat.two_pow_add_eq_or_of_lt buf.isLt]

theorem laneByte_getLsbD (w : Word) (j i : Nat) :
    (laneByte w j).getLsbD i = (decide (i < 8) && w.getLsbD (8 * j + i)) := by
  simp [laneByte, BitVec.getLsbD_extractLsb']

/-- The lanes of a byte above the buffer are the pending bytes and, on top, the byte (R51). -/
theorem laneByte_byteOverBuf (x : Byte) (buf : BitVec 56) {j : Nat} (hj : j < 8) :
    laneByte (x ++ buf) j = if j = 7 then x else bufByte buf j := by
  apply BitVec.eq_of_getLsbD_eq
  intro i hi
  rw [laneByte_getLsbD, byteOverBuf_getLsbD]
  by_cases h : j = 7
  · subst h
    simp [hi, show ¬ 56 + i < 56 by omega]
  · simp [h, hi, show 8 * j + i < 56 by omega, bufByte]

theorem rspWord_getLsbD (r : Rsp) (i : Nat) :
    r.word.getLsbD i = if i < 64 then r.val.getLsbD i else r.code.bits.getLsbD (i - 64) :=
  BitVec.getLsbD_append

end Sys2Proof.Machine
end

