-- ==== Sys2Proof/Tests/Slice0.lean ====
section
/-! SUPPORT. The model's own tests. Expected values come from spec/95_test_vectors.md and the worked examples of the rules, never from
the model; below them stand the witnesses of the statements' hypotheses. -/

namespace Sys2Proof.Tests

open Sys2Proof Sys2Proof.Machine

/-! ### Helpers -/

/-- The source's test key 00..0f (R52). -/
def k0 : Word := 0x0706050403020100

def k1 : Word := 0x0f0e0d0c0b0a0908

/-- INITSTATE of the test key (R102). -/
def vInit : VState := ⟨0x7469686173716475, 0x6b617f6d656e6665, 0x6b7f62616d677361, 0x7b6b696e727e6c7b⟩

/-- An engine under the test key with pending bytes. -/
def engineOf (phase : Phase) (nbuf : BitVec 3) (buf : BitVec 56) (len : Word) : Engine :=
  { Engine.reset with k0 := k0, k1 := k1, v := vInit, nbuf := nbuf, buf := buf, len := len, phase := phase }

def stateOf (build : Variant) (e : Engine) : State := { build := build, eng := e, inputs := [], rsp := none }

def absorbing : State := stateOf .sip24 (engineOf .absorb 0 0 0)

def finished : State := stateOf .sip24 { engineOf .done 0 0 0 with digest := 0x726fdb47dd0e0e31 }

def fresh (build : Variant) : State := stateOf build Engine.reset

/-- The engine after a step. -/
def engineAfter : Result → Option Engine
  | .next t => some t.eng
  | .fault _ => none
  | .refused _ => none

/-- The 68 response bits of a step (R74). -/
def wordAfter : Result → Option (BitVec 68)
  | .next t => t.rsp.map Rsp.word
  | .fault _ => none
  | .refused _ => none

/-! ### Well-formedness: one ill-formed term for the one check -/

theorem test_wellFormed_refuses_count_nine : (Instr.feed 9 0).wellFormed = false := by decide

theorem test_wellFormed_takes_count_eight : (Instr.feed 8 0).wellFormed = true := by decide

/-! ### Decoding: words written out from R70 and R71, header bits first -/

theorem test_decode_init :
    decode (0b0001#4 ++ 0b0000#4 ++ 0x0f0e0d0c0b0a0908#64 ++ 0x0706050403020100#64) = .command (.init k0 k1) := by decide

theorem test_decode_feed :
    decode (0b0010#4 ++ 0b0011#4 ++ 0x1111111111111111#64 ++ 0xdeadbeefff020100#64) =
      .command (.feed 3 0xdeadbeefff020100) := by decide

theorem test_decode_final :
    decode (0b0011#4 ++ 0b0000#4 ++ 0x0000000000005678#64 ++ 0x0000000000001234#64) = .command .final := by decide

theorem test_decode_status : decode (0b0100#4 ++ 0b0000#4 ++ 0#64 ++ 0#64) = .command .status := by decide

theorem test_decode_rddigest : decode (0b0101#4 ++ 0b0000#4 ++ 0#64 ++ 0#64) = .command .rddigest := by decide

theorem test_decode_zero_word_is_illegal : decode 0 = .illegal .reservedOpcode := by decide

theorem test_decode_opcode_six_is_illegal :
    decode 0x6000000000000000000000000000000000#136 = .illegal .reservedOpcode := by decide

theorem test_decode_feed_nine_is_illegal :
    decode 0x2900000000000000000000000000000000#136 = .illegal .feedCountTooLarge := by decide

theorem test_decode_final_one_is_illegal :
    decode 0x3100000000000000000000000000000000#136 = .illegal .countNotZero := by decide

theorem test_decodeTableWord_feed :
    decodeTableWord 136 0x2600000000000000000000315f72657375 = some (.feed 6 0x0000315f72657375) := by decide

/-! ### The PRF Core (95_test_vectors.md sections 3.1 to 3.6) -/

theorem test_rotl64_wraps : rotl64 0x8000000000000000 13 = 0x1000 ∧ rotl64 0x0123456789abcdef 21 = 0xacf13579bde02468 := by
  decide

theorem test_add64_wraps : add64 0xffffffffffffffff 0xffffffffffffffff = 0xfffffffffffffffe := by decide

theorem test_initState_of_test_key : initState k0 k1 = vInit := by decide

theorem test_sipRound_worked_example :
    sipRound ⟨0x0123456789abcdef, 0xfedcba9876543210, 0x0f1e2d3c4b5a6978, 0x8796a5b4c3d2e1f0⟩ =
      ⟨0x33001123eeddccfd, 0x1d0b375d48a3fad5, 0x88eb2b8cff61c426, 0x177dca9a711bacff⟩ := by decide

theorem test_sipRound_all_ones :
    sipRound ⟨0xffffffffffffffff, 0xffffffffffffffff, 0xffffffffffffffff, 0xffffffffffffffff⟩ =
      ⟨0xffffffff00000000, 0xfffffffffffdffff, 0xffffffffffffffff, 0xffffffff00200000⟩ := by decide

theorem test_sipRoundInv_undoes_the_worked_example :
    sipRoundInv ⟨0x33001123eeddccfd, 0x1d0b375d48a3fad5, 0x88eb2b8cff61c426, 0x177dca9a711bacff⟩ =
      ⟨0x0123456789abcdef, 0xfedcba9876543210, 0x0f1e2d3c4b5a6978, 0x8796a5b4c3d2e1f0⟩ := by decide

theorem test_compress_one_round :
    compress 1 vInit 0x0706050403020100 =
      ⟨0x63608f969061857f, 0x4ed232083d9aa8dc, 0xf2f74892d8141a2e, 0x9290f9810552f4a8⟩ := by decide

theorem test_compress_two_rounds :
    compress 2 vInit 0x0706050403020100 =
      ⟨0x4a017198de0a59e0, 0x0d52f6f62a4f59a4, 0x634cb3577b01fd3d, 0xa5224d6f55c7d9c8⟩ := by decide

theorem test_finalCore_three_rounds : (finalCore 3 ⟨0, 0, 0, 0⟩).2 = 0x5f9cab264f678644 := by decide

theorem test_finalCore_four_rounds :
    finalCore 4 ⟨0x3c85b3ab6f55be51, 0x414fc3fb98efe374, 0xccf13ea527b9f4bd, 0x5293f5da84008f82⟩ =
      (⟨0xf6bcd53893fecff1, 0x54b9964c7ea0d937, 0x1b38329c099bb55a, 0x1814bb89ad7be679⟩, 0xa129ca6149be45e5) := by decide

theorem test_sipHash_user_1 :
    sipHash .sip13 0 0 [0x75, 0x73, 0x65, 0x72, 0x5f, 0x31] = 0x97568973131724df ∧
    sipHash .sip24 0 0 [0x75, 0x73, 0x65, 0x72, 0x5f, 0x31] = 0xecec4246152fe580 := by decide

/-! ### The commands, one step each (95_test_vectors.md sections 3.11 to 3.14 and 5) -/

theorem test_init_from_a_finished_hash :
    engineAfter (step (finished.present 0x100f0e0d0c0b0a09080706050403020100#136)) = some (engineOf .absorb 0 0 0) := by
  decide

theorem test_init_keeps_err :
    (engineAfter (step (({ absorbing with eng := absorbing.eng.setErr }).present
      0x1000000000000000000000000000000000#136))).map Engine.err = some true := by decide

theorem test_feed_straddles_a_group :
    engineAfter (step ((stateOf .sip24 { engineOf .absorb 5 0x1413121110 21 with
        v := ⟨0x3c85b3ab6f55be51, 0x414fc3fb98efe374, 0xccf13ea527b9f4bd, 0x5293f5da84008f82⟩ }).present
        0x2800000000000000001c1b1a1918171615#136)) =
      some { engineOf .absorb 5 0x1c1b1a1918 29 with
        v := ⟨0x1087882a400dd344, 0x6ada9aaf64ae1f81, 0x893a3438bfafc9f2, 0x0c29444725aec787⟩ } := by decide

theorem test_feed_ignores_high_lanes :
    engineAfter (step (absorbing.present 0x231111111111111111deadbeefff020100#136)) =
      some (engineOf .absorb 3 0x020100 3) := by decide

theorem test_final_after_fifteen_bytes :
    wordAfter (step ((stateOf .sip24 { engineOf .absorb 7 0x0e0d0c0b0a0908 15 with
        v := ⟨0x4a017198de0a59e0, 0x0d52f6f62a4f59a4, 0x634cb3577b01fd3d, 0xa5224d6f55c7d9c8⟩ }).present
        0x3000000000000000000000000000000000#136)) = some 0x0a129ca6149be45e5#68 := by decide

theorem test_final_twice_is_refused :
    engineAfter (step (finished.present 0x3000000000000000000000000000000000#136)) = some finished.eng.setErr ∧
    wordAfter (step (finished.present 0x3000000000000000000000000000000000#136)) = some 0x10000000000000000#68 := by decide

theorem test_status_after_reset :
    wordAfter (step ((fresh .sip24).present 0x4000000000000000000000000000000000#136)) = some 0x00000000000000008#68 := by
  decide

theorem test_status_done_with_err :
    wordAfter (step ((stateOf .sip13 finished.eng.setErr).present 0x4000000000000000000000000000000000#136)) =
      some 0x00000000000000006#68 := by decide

theorem test_rddigest_in_done :
    wordAfter (step (finished.present 0x5000000000000000000000000000000000#136)) = some 0x0726fdb47dd0e0e31#68 := by decide

theorem test_rddigest_in_absorb_is_refused :
    wordAfter (step (absorbing.present 0x5000000000000000000000000000000000#136)) = some 0x10000000000000000#68 := by decide

theorem test_illegal_word_in_done :
    engineAfter (step (finished.present 0x2900000000000000000000000000000000#136)) = some finished.eng.setErr ∧
    wordAfter (step (finished.present 0x2900000000000000000000000000000000#136)) = some 0x20000000000000000#68 := by decide

theorem test_finalWord_wraps_the_length :
    finalWord (engineOf .absorb 7 0x07060504030201 18446744073709551615) = 0xff07060504030201 := by decide

theorem test_reset_clears_digest_and_err :
    engineAfter (step { finished with eng := finished.eng.setErr, inputs := [.hardwareReset none] }) =
      some Engine.reset := by decide

theorem test_withFetchWord_is_the_next_command :
    engineAfter (step (State.reset.withFetchWord 136 0x100f0e0d0c0b0a09080706050403020100)) =
      some (engineOf .absorb 0 0 0) := by decide

/-! ### The assembler (R81, R82) -/

theorem test_parse_feed_text :
    parseLine ['F', 'E', 'E', 'D', ' ', '"', 'u', ';', '1', '"', ' ', ';', ' ', 'x'] =
      some (some (.feedBytes [0x75, 0x3b, 0x31])) := by decide

theorem test_parse_feed_bytes :
    parseLine ['F', 'E', 'E', 'D', ' ', '[', '0', '8', ' ', '0', 'e', ']'] = some (some (.feedBytes [0x08, 0x0e])) := by decide

theorem test_parse_init :
    parseLine ['I', 'N', 'I', 'T', ' ', '0', 'x', '1', '0', ',', ' ', '7', '3'] = some (some (.init 0x10 73)) := by decide

theorem test_hash_expansion_of_nine_bytes :
    hashExpansion 0 0 [1, 2, 3, 4, 5, 6, 7, 8, 9] =
      [.init 0 0, .feed 8 0x0807060504030201, .feed 1 0x09, .final] := by decide

/-! ### Witnesses: a concrete input that meets all hypotheses of each statement together -/

/-- Seven lanes decide what the buffer holds above its count. -/
theorem bufferZeroAbove (buf : BitVec 56) (n : Nat) (h : ∀ j : Fin 7, n ≤ j.val → bufByte buf j.val = 0#8) :
    ∀ j, n ≤ j → j ≤ 6 → bufByte buf j = 0#8 :=
  fun j hn hj => h ⟨j, by omega⟩ hn

theorem witness_DecodeOfEncodeIsTheCommand : (Instr.feed 8 0xffffffffffffffff).wellFormed = true := by decide

theorem witness_DecodedOperandsAreTheFields :
    (∃ cw, decode cw = .command (.init k0 k1)) ∧ (∃ cw, decode cw = .command (.feed 8 k0)) :=
  ⟨⟨0x100f0e0d0c0b0a09080706050403020100#136, by decide⟩, ⟨0x2800000000000000000706050403020100#136, by decide⟩⟩

/-- One word for each of the three cases, at the ends of their ranges. -/
theorem witness_IllegalWordsExactly :
    IllegalWord 0 ∧ IllegalWord 0x6000000000000000000000000000000000#136 ∧
    IllegalWord 0xffffffffffffffffffffffffffffffffff#136 ∧
    IllegalWord 0x2900000000000000000000000000000000#136 ∧ IllegalWord 0x2f00000000000000000000000000000000#136 ∧
    IllegalWord 0x1100000000000000000000000000000000#136 ∧ IllegalWord 0x5f00000000000000000000000000000000#136 :=
  ⟨by decide, by decide, by decide, by decide, by decide, by decide, by decide⟩

theorem witness_HeaderAloneDecides :
    headerByte 0x2100000000000000000000000000000041#136 = headerByte 0x21ffffffffffffffffffffffffffffffff#136 ∧
    decode 0x2100000000000000000000000000000041#136 = .command (.feed 1 0x41) ∧
    decode 0x21ffffffffffffffffffffffffffffffff#136 = .command (.feed 1 0xffffffffffffffff) ∧
    headerByte 0x6000000000000000000000000000000041#136 = headerByte 0x60ffffffffffffffffffffffffffffffff#136 := by decide

theorem witness_UnusedDataBitsAreIgnored :
    (∀ i, i < (3#4 : BitVec 4).toNat →
      (0x0000000000020100#64).extractLsb' (8 * i) 8 = (0xdeadbeefff020100#64).extractLsb' (8 * i) 8) ∧
    (3#4 : BitVec 4) ≤ 8#4 ∧ (8#4 : BitVec 4) ≤ 8#4 ∧ (0#4 : BitVec 4) ≤ 8#4 := by decide

theorem witness_WordOperationLaws : (13 ∈ [13, 16, 17, 21, 32]) ∧ (32 ∈ [13, 16, 17, 21, 32]) ∧ 63 < 64 := by decide

theorem witness_InitStateOfTheKey : ∃ t, exec (.init k0 k1) finished = .next t := ⟨_, rfl⟩

theorem witness_FinalCoreStateIsABijection :
    ∀ i, i < 64 → (0xff#64).getLsbD i = Bool.xor ((0#64).getLsbD i) (decide (i < 8)) := by decide

theorem witness_CompressByAFixedWordIsABijection : compress 1 vInit k0 = compress 1 vInit k0 := rfl

theorem witness_PhaseTransitionTable : (8#4 : BitVec 4) ≤ 8#4 ∧ IllegalWord 0 := by decide

theorem witness_InvalidStateExactly :
    (Instr.feed 0 0).wellFormed = true ∧ finished.eng.phase ≠ .absorb ∧ absorbing.eng.phase ≠ .done := by decide

theorem witness_IllegalCommandInEveryPhase :
    IllegalWord 0x2900000000000000000000000000000000#136 ∧
    ∃ t r, ¬ IllegalWord 0x2800000000000000000000000000000000#136 ∧
      runCommand 0x2800000000000000000000000000000000#136 finished = .next t ∧ t.rsp = some r :=
  ⟨by decide, _, _, by decide, rfl, rfl⟩

/-- An error of each code. -/
theorem witness_ErrorChangesOnlyErr :
    (∃ t r, runCommand 0x3000000000000000000000000000000000#136 finished = .next t ∧ t.rsp = some r ∧ r.code ≠ .ok) ∧
    (∃ t r, runCommand 0 finished = .next t ∧ t.rsp = some r ∧ r.code ≠ .ok) :=
  ⟨⟨_, _, rfl, rfl, by decide⟩, ⟨_, _, rfl, rfl, by decide⟩⟩

theorem witness_InitConstructsAHasher : (1#4 : BitVec 4) ≠ 0#4 := by decide

/-- Both sides of the count 7, and a buffer that is zero above its count. -/
theorem witness_AbsorbByteEffect :
    (engineOf .absorb 6 0x050403020100 6).nbuf.toNat < 7 ∧ (engineOf .absorb 7 0x06050403020100 7).nbuf.toNat = 7 ∧
    (∀ j, (engineOf .absorb 6 0x050403020100 6).nbuf.toNat ≤ j → j ≤ 6 →
      bufByte (engineOf .absorb 6 0x050403020100 6).buf j = 0) :=
  ⟨by decide, by decide, bufferZeroAbove _ _ (by decide)⟩

theorem witness_FeedAbsorbsItsLanes :
    absorbing.eng.phase = .absorb ∧ finished.eng.phase ≠ .absorb ∧
    (8#4 : BitVec 4) ≤ 8#4 ∧ (0#4 : BitVec 4) ≤ 8#4 ∧ (9#4 : BitVec 4) ≤ 9#4 := by decide

/-- The two clauses where they meet: three pending bytes with beats of four and of five; and the fullest beat on the fullest buffer. -/
theorem witness_FeedClosedForm :
    (engineOf .absorb 3 0x020100 3).phase = .absorb ∧
    (∀ j, (engineOf .absorb 3 0x020100 3).nbuf.toNat ≤ j → j ≤ 6 →
      bufByte (engineOf .absorb 3 0x020100 3).buf j = 0) ∧
    (engineOf .absorb 3 0x020100 3).nbuf.toNat + (4#4).toNat < 8 ∧
    8 ≤ (engineOf .absorb 3 0x020100 3).nbuf.toNat + (5#4).toNat ∧
    (∀ j, (engineOf .absorb 7 0x06050403020100 7).nbuf.toNat ≤ j → j ≤ 6 →
      bufByte (engineOf .absorb 7 0x06050403020100 7).buf j = 0) ∧
    8 ≤ (engineOf .absorb 7 0x06050403020100 7).nbuf.toNat + (8#4).toNat :=
  ⟨rfl, bufferZeroAbove _ _ (by decide), by decide, by decide, bufferZeroAbove _ _ (by decide), by decide⟩

theorem witness_FinalWordLayout : BufferInv (engineOf .absorb 6 0x050403020100 6) :=
  ⟨bufferZeroAbove _ _ (by decide), by decide⟩

theorem witness_FinalAnswersTheDigest :
    absorbing.eng.phase = .absorb ∧ (fresh .sip13).eng.phase ≠ .absorb ∧ (15#4 : BitVec 4) ≠ 0#4 ∧
    finished.eng.phase = .done ∧ ∃ t, exec .final finished = .next t :=
  ⟨rfl, by decide, by decide, rfl, _, rfl⟩

theorem witness_StatusReadsPhaseErrAndVariant : (1#4 : BitVec 4) ≠ 0#4 ∧ (15#4 : BitVec 4) ≠ 0#4 := by decide

theorem witness_RdDigestAnswersOnlyWhenDone :
    finished.eng.phase = .done ∧ absorbing.eng.phase ≠ .done ∧ (fresh .sip24).eng.phase ≠ .done ∧ (1#4 : BitVec 4) ≠ 0#4 ∧
    (∃ t, exec (.init k0 k1) finished = .next t) ∧
    absorbing.eng.phase = .absorb ∧ ∃ t, exec .final absorbing = .next t :=
  ⟨rfl, by decide, by decide, by decide, ⟨_, rfl⟩, rfl, _, rfl⟩

theorem witness_EveryCommandGetsOneResponse : (absorbing.present 0).inputs = .command 0 :: [] := rfl

/-- A FEED that runs and one that is refused. -/
theorem witness_FeedFrame :
    (∃ t r, exec (.feed 8 k0) absorbing = .next t ∧ t.rsp = some r ∧ r.code = .ok) ∧
    (∃ t r, exec (.feed 8 k0) finished = .next t ∧ t.rsp = some r ∧ r.code ≠ .ok) :=
  ⟨⟨_, _, rfl, rfl, rfl⟩, ⟨_, _, rfl, rfl, by decide⟩⟩

theorem witness_InitAndFinalFrame :
    (∃ t, exec (.init k0 k1) finished = .next t) ∧
    (∃ t r, exec .final absorbing = .next t ∧ t.rsp = some r ∧ r.code = .ok) :=
  ⟨⟨_, rfl⟩, ⟨_, _, rfl, rfl, rfl⟩⟩

theorem witness_ReadCommandsFrame :
    (∃ t, exec .status absorbing = .next t) ∧ (∃ t, exec .rddigest absorbing = .next t) ∧
    (∃ t, exec .rddigest finished = .next t) :=
  ⟨⟨_, rfl⟩, ⟨_, rfl⟩, ⟨_, rfl⟩⟩

theorem witness_WhichCommandsAreIdempotent :
    (∃ t u, exec (.init k0 k1) finished = .next t ∧ exec (.init k0 k1) t = .next u) ∧
    (∃ t u, exec .rddigest finished = .next t ∧ exec .rddigest t = .next u) ∧
    (∃ t u, exec .status absorbing = .next t ∧ exec .status t = .next u) ∧
    (∃ t, exec (.feed 0#4 k0) absorbing = .next t) ∧ (∃ t, exec .final absorbing = .next t) :=
  ⟨⟨_, _, rfl, rfl⟩, ⟨_, _, rfl, rfl⟩, ⟨_, _, rfl, rfl⟩, ⟨_, rfl⟩, ⟨_, rfl⟩⟩

theorem witness_StepRunsTheDecodedCommand :
    (absorbing.present 0x3000000000000000000000000000000000#136).inputs =
      .command 0x3000000000000000000000000000000000#136 :: [] ∧
    decode 0x3000000000000000000000000000000000#136 = .command .final := by decide

theorem witness_IdleEngineHoldsItsState : absorbing.inputs = [] := rfl

theorem witness_CommandSequenceIsAFold :
    ([0x4000000000000000000000000000000000#136, 0#136] : List CommandWord)[1]? = some 0#136 := rfl

theorem witness_HardwareResetFromAnyState :
    ({ finished with inputs := [.hardwareReset (some 0x3000000000000000000000000000000000#136), .command 0] }).inputs =
      .hardwareReset (some 0x3000000000000000000000000000000000#136) :: [.command 0] := rfl

theorem witness_AfterResetAndOnlyReset :
    (fresh .sip13).eng = State.reset.eng ∧ (fresh .sip24).eng = State.reset.eng ∧
    (∃ t, step (absorbing.present 0) = .next t) ∧
    (∀ cut rest, (absorbing.present 0).inputs ≠ .hardwareReset cut :: rest) :=
  ⟨rfl, rfl, ⟨_, rfl⟩, by simp [State.present]⟩

theorem witness_ErrIsStickyAndGatesNothing :
    (∃ t r, runCommand 0 finished = .next t ∧ t.rsp = some r) ∧
    (∃ t u, runCommand 0x4000000000000000000000000000000000#136 finished = .next t ∧
      runCommand 0x4000000000000000000000000000000000#136 { finished with eng := { finished.eng with err := true } } =
        .next u) ∧
    decode 0x5000000000000000000000000000000000#136 ≠ .command .status ∧
    (∃ t r, exec .status finished = .next t ∧ t.rsp = some r) :=
  ⟨⟨_, _, rfl, rfl⟩, ⟨_, _, rfl, rfl⟩, by decide, _, _, rfl, rfl⟩

/-- A state in the middle of a hash meets the invariant and takes a step. -/
theorem witness_EveryStepKeepsReachableInv :
    ReachableInv (engineOf .absorb 3 0x020100 3) ∧
    ∃ t, step ((stateOf .sip24 (engineOf .absorb 3 0x020100 3)).present 0x2800000000000000000a09080706050403#136) =
      .next t :=
  ⟨⟨⟨bufferZeroAbove _ _ (by decide), by decide⟩, fun h => absurd h (by decide), fun _ => rfl⟩, _, rfl⟩

/-- The source's example "user_1" in two partitions, one of them with an empty beat. -/
theorem witness_ChunkBoundaryIndependence :
    absorbing.eng.phase = .absorb ∧
    (∀ b ∈ ([(6, 0x315f72657375)] : List (BitVec 4 × Word)), b.1 ≤ 8#4) ∧
    (∀ b ∈ ([(2, 0x7375), (0, 0xff), (4, 0x315f7265)] : List (BitVec 4 × Word)), b.1 ≤ 8#4) ∧
    ([(6, 0x315f72657375)] : List (BitVec 4 × Word)).flatMap (fun b => beatBytes b.1 b.2) =
      ([(2, 0x7375), (0, 0xff), (4, 0x315f7265)] : List (BitVec 4 × Word)).flatMap (fun b => beatBytes b.1 b.2) :=
  ⟨rfl, by simp, by simp, by decide⟩

/-- A FEED, an illegal word and a stray RDDIGEST. -/
theorem witness_ErrorsDoNotDamageTheStream :
    absorbing.eng.phase = .absorb ∧
    ∀ cw ∈ ([0x2200000000000000000000000000000100#136, 0#136, 0x5000000000000000000000000000000000#136] :
      List CommandWord), endsStream cw = false :=
  ⟨rfl, List.forall_mem_cons.2 ⟨by decide, List.forall_mem_cons.2 ⟨by decide,
    List.forall_mem_cons.2 ⟨by decide, by simp⟩⟩⟩⟩

theorem witness_HasherComputesSipHash :
    ∀ b ∈ ([(8, 0x0706050403020100), (7, 0x0e0d0c0b0a0908)] : List (BitVec 4 × Word)), b.1 ≤ 8#4 := by simp

theorem witness_HashPseudoCommandNeverFails : 3 < ((hashExpansion 0 0 [1, 2, 3, 4, 5, 6, 7, 8, 9]).map encode).length := by
  rw [List.length_map]; decide

theorem witness_EqualKeyAndBytesGiveEqualDigest :
    absorbing.build = finished.build ∧
    (∀ b ∈ ([(3, 0x020100)] : List (BitVec 4 × Word)), b.1 ≤ 8#4) ∧
    (∀ b ∈ ([(1, 0x00), (2, 0x0201)] : List (BitVec 4 × Word)), b.1 ≤ 8#4) ∧
    ([(3, 0x020100)] : List (BitVec 4 × Word)).flatMap (fun b => beatBytes b.1 b.2) =
      ([(1, 0x00), (2, 0x0201)] : List (BitVec 4 × Word)).flatMap (fun b => beatBytes b.1 b.2) :=
  ⟨rfl, by simp, by simp, by decide⟩

theorem witness_AppendedZeroBytesAreSeparated : 0 < 1 ∧ 1 % 256 ≠ 0 ∧ 0 < 256 ∧ 256 % 256 = 0 := by decide

theorem witness_KeyRegistersAreReadByNothing :
    ∃ t u, runCommand 0x3000000000000000000000000000000000#136 absorbing = .next t ∧
      runCommand 0x3000000000000000000000000000000000#136 { absorbing with eng := { absorbing.eng with k0 := 1, k1 := 2 } } =
        .next u :=
  ⟨_, _, rfl, rfl⟩

theorem witness_InternalsReachNoResponse :
    decode 0x2100000000000000000000000000000041#136 ≠ .command .final ∧
    absorbing.build = (stateOf .sip24 (engineOf .absorb 3 0x020100 3)).build ∧
    absorbing.eng.phase = (engineOf .absorb 3 0x020100 3).phase ∧
    absorbing.eng.err = (engineOf .absorb 3 0x020100 3).err ∧
    absorbing.eng.digest = (engineOf .absorb 3 0x020100 3).digest ∧
    (∃ t, runCommand 0x2100000000000000000000000000000041#136 absorbing = .next t) ∧
    (∃ t, runCommand 0x2100000000000000000000000000000041#136 (stateOf .sip24 (engineOf .absorb 3 0x020100 3)) = .next t) :=
  ⟨by decide, rfl, rfl, rfl, rfl, ⟨_, rfl⟩, ⟨_, rfl⟩⟩

theorem witness_ControlIsIndependentOfData :
    headerByte 0x2100000000000000000000000000000041#136 = headerByte 0x21ffffffffffffffffffffffffffffffff#136 ∧
    absorbing.eng.phase = (engineOf .absorb 7 0 7).phase ∧ absorbing.eng.err = (engineOf .absorb 7 0 7).err ∧
    (∃ t, runCommand 0x2100000000000000000000000000000041#136 absorbing = .next t) ∧
    (∃ t, runCommand 0x21ffffffffffffffffffffffffffffffff#136 (stateOf .sip13 (engineOf .absorb 7 0 7)) = .next t) :=
  ⟨by decide, rfl, rfl, ⟨_, rfl⟩, ⟨_, rfl⟩⟩

theorem witness_EnginesAreIndependent :
    (0 : Nat) ≠ 1 ∧ ([absorbing, finished] : List State)[1]? = some finished ∧ ∃ t, step finished = .next t :=
  ⟨by decide, rfl, _, rfl⟩

end Sys2Proof.Tests
end

section
/-! PROOFS. `ERR` gates nothing (R28): how every command ends, said once for both values of `ERR`, and what follows from it. -/

namespace Sys2Proof.Machine

/-! ### The flag `ERR` replaced -/

/-- The registers with `ERR` at `b`. -/
def Engine.withErr (b : Bool) (e : Engine) : Engine := { e with err := b }

/-- The machine with `ERR` at `b`. -/
def State.withErr (b : Bool) (s : State) : State := { s with eng := s.eng.withErr b }

theorem absorbByte_withErr (c : Nat) (b : Bool) (e : Engine) (x : Byte) :
    absorbByte c (e.withErr b) x = (absorbByte c e x).withErr b := by
  obtain ⟨hlt, h⟩ | ⟨hfull, h⟩ := absorbByte_cases c e x
  · rw [h]; exact if_pos hlt
  · rw [h]; exact if_neg (show ¬ e.nbuf.toNat < 7 by omega)

theorem absorbBytes_withErr (c : Nat) (xs : List Byte) (b : Bool) (e : Engine) :
    absorbBytes c xs (e.withErr b) = (absorbBytes c xs e).withErr b := by
  induction xs generalizing e with
  | nil => rfl
  | cons x xs ih => rw [absorbBytes_cons, absorbBytes_cons, absorbByte_withErr, ih]

theorem feedEngine_withErr (build : Variant) (n : BitVec 4) (d0 : Word) (b : Bool) (e : Engine) :
    feedEngine build n d0 (e.withErr b) = (feedEngine build n d0 e).withErr b := by
  unfold feedEngine
  rw [absorbBytes_withErr]
  rfl

/-! ### How a command ends, for both values of `ERR` -/

/-- From the registers of `s`, `run` either raises one error whatever `ERR` is, or ends with the same registers whatever `ERR` is,
keeping `ERR`; and unless it `readsErr` the value it answers does not depend on `ERR` either. -/
def ErrGatesNothing (readsErr : Prop) (run : State → Result) (s : State) : Prop :=
  (∃ error, ∀ b, run (s.withErr b) = raise error (s.withErr b)) ∨
  (∃ (e : Engine) (val : Bool → Word),
    (∀ b, run (s.withErr b) = respond (e.withErr b) (val b) (s.withErr b)) ∧
    (¬ readsErr → ∀ b c, val b = val c))

/-- The phase check of R131 does not look at `ERR`. -/
theorem errGatesNothing_of_ifAccepted {readsErr : Prop} {run : State → Result} {s : State} (i : Instr) (e : Engine)
    (val : Bool → Word)
    (hrun : ∀ b, run (s.withErr b) = ifAccepted i (s.withErr b) (respond (e.withErr b) (val b) (s.withErr b)))
    (hval : ¬ readsErr → ∀ b c, val b = val c) : ErrGatesNothing readsErr run s := by
  cases h : accepts i s.eng.phase with
  | false => exact .inl ⟨.invalidState, fun b => (hrun b).trans (ifAccepted_of_not_accepts h)⟩
  | true => exact .inr ⟨e, val, fun b => (hrun b).trans (ifAccepted_of_accepts h), hval⟩

/-- STATUS is the only command whose answer depends on `ERR`. -/
theorem exec_errGatesNothing (i : Instr) (s : State) : ErrGatesNothing (i = .status) (exec i) s := by
  cases i with
  | init k0 k1 =>
    exact errGatesNothing_of_ifAccepted (.init k0 k1) (initEngine k0 k1 s.eng) (fun _ => 0)
      (fun _ => rfl) (fun _ _ _ => rfl)
  | feed n d0 =>
    by_cases hn : n ≤ 8#4
    · refine errGatesNothing_of_ifAccepted (.feed n d0) (feedEngine s.build n d0 s.eng) (fun _ => 0)
        (fun b => ?_) (fun _ _ _ => rfl)
      rw [← feedEngine_withErr]
      exact if_pos hn
    · exact .inl ⟨.illegalCommand, fun b => exec_feed_illegal n d0 (s.withErr b) hn⟩
  | final =>
    exact errGatesNothing_of_ifAccepted .final (finalEngine s.build s.eng) (fun _ => (finalResult s.build s.eng).2)
      (fun _ => rfl) (fun _ _ _ => rfl)
  | status =>
    exact errGatesNothing_of_ifAccepted .status s.eng (fun b => (statusByte s.build (s.eng.withErr b)).setWidth 64)
      (fun _ => rfl) (fun h => absurd rfl h)
  | rddigest =>
    exact errGatesNothing_of_ifAccepted .rddigest s.eng (fun _ => s.eng.digest) (fun _ => rfl) (fun _ _ _ => rfl)

theorem runCommand_errGatesNothing (cw : CommandWord) (s : State) :
    ErrGatesNothing (decode cw = .command .status) (runCommand cw) s := by
  cases hcw : decode cw with
  | command i =>
    rw [Decoded.command.injEq, show runCommand cw = exec i from funext (runCommand_legal hcw)]
    exact exec_errGatesNothing i s
  | illegal why => exact .inl ⟨.illegalCommand, fun b => runCommand_illegal hcw (s.withErr b)⟩

/-! ### What follows from it -/

theorem commandError_code_ne_ok (error : CommandError) : error.code ≠ .ok := by
  cases error <;> decide

/-- A command sets `ERR` when it does not answer `OK` and keeps it when it does (R28, R173). -/
theorem runCommand_err {cw : CommandWord} {s t : State} {r : Rsp} (ht : runCommand cw s = .next t)
    (hr : t.rsp = some r) : t.eng.err = if r.code = .ok then s.eng.err else true := by
  obtain ⟨error, h⟩ | ⟨e, val, h, -⟩ := runCommand_errGatesNothing cw s
  · obtain rfl := raise_next ((h s.eng.err).symm.trans ht)
    obtain rfl := Option.some.inj hr
    exact (if_neg (commandError_code_ne_ok error)).symm
  · obtain rfl := respond_next ((h s.eng.err).symm.trans ht)
    obtain rfl := Option.some.inj hr
    rfl

/-- The noninterference of `ERR`: the code and the other registers do not depend on it, nor does any answer but STATUS's (R28). -/
theorem runCommand_withErr {cw : CommandWord} {s t u : State} {b : Bool} (ht : runCommand cw s = .next t)
    (hu : runCommand cw (s.withErr b) = .next u) :
    t.eng.withErr false = u.eng.withErr false ∧ t.rsp.map Rsp.code = u.rsp.map Rsp.code ∧
    (decode cw ≠ .command .status → t.rsp = u.rsp) := by
  obtain ⟨error, h⟩ | ⟨e, val, h, hval⟩ := runCommand_errGatesNothing cw s
  · obtain rfl := raise_next ((h s.eng.err).symm.trans ht)
    obtain rfl := raise_next ((h b).symm.trans hu)
    exact ⟨rfl, rfl, fun _ => rfl⟩
  · obtain rfl := respond_next ((h s.eng.err).symm.trans ht)
    obtain rfl := respond_next ((h b).symm.trans hu)
    exact ⟨rfl, rfl, fun hcw => congrArg (fun w => some (Rsp.mk .ok w)) (hval hcw _ _)⟩

/-- `ERR` is bit 2 of the status view (R29). -/
theorem statusByte_getLsbD_two (build : Variant) (e : Engine) : (statusByte build e).getLsbD 2 = e.err := by
  rw [statusByte, BitVec.getLsbD_append, BitVec.getLsbD_append]
  cases e.err <;> rfl

theorem exec_status_val_getLsbD_two {s t : State} {r : Rsp} (ht : exec .status s = .next t) (hr : t.rsp = some r) :
    r.val.getLsbD 2 = s.eng.err := by
  rw [exec_status] at ht
  obtain rfl := respond_next ht
  obtain rfl := Option.some.inj hr
  calc ((statusByte s.build s.eng).setWidth 64).getLsbD 2
      _ = (statusByte s.build s.eng).getLsbD 2 := by rw [BitVec.getLsbD_setWidth]; rfl
      _ = s.eng.err := statusByte_getLsbD_two s.build s.eng

theorem hardwareReset_err (s : State) : ∃ t, hardwareReset s = .next t ∧ t.eng.err = false :=
  ⟨_, rfl, rfl⟩

/-- Settles O37: every command ends the same way for both values of `ERR` (`runCommand_errGatesNothing`), and only STATUS shows
it. -/
theorem errIsStickyAndGatesNothing : Obligations.ErrIsStickyAndGatesNothing :=
  ⟨fun _ _ _ _ ht hr => runCommand_err ht hr, fun s _ => hardwareReset_err s,
    fun _ _ _ ht hr => exec_status_val_getLsbD_two ht hr, fun _ _ _ _ _ ht hu => runCommand_withErr ht hu⟩

end Sys2Proof.Machine
end

section
/-! PROOFS. A sequence of commands is a left fold (R57): a command reads nothing of the ports, so a step on a presented command is
its transaction, and a run of a command list is the fold of the transactions. -/

namespace Sys2Proof.Machine

/-! ### A command reads nothing of the ports -/

/-- The machine with other commands waiting and another last response. -/
def State.withPorts (inputs : List Input) (rsp : Option Rsp) (s : State) : State := { s with inputs := inputs, rsp := rsp }

/-- From the build and the registers of `s`, `run` leaves one engine and answers one response, whatever the ports hold, and takes
no waiting input. -/
def IgnoresPorts (run : State → Result) (s : State) : Prop :=
  ∃ e r, ∀ inputs rsp, run (s.withPorts inputs rsp) = .next { s with eng := e, inputs := inputs, rsp := some r }

theorem ignoresPorts_of_raise {run : State → Result} {s : State} (error : CommandError)
    (hrun : ∀ inputs rsp, run (s.withPorts inputs rsp) = raise error (s.withPorts inputs rsp)) : IgnoresPorts run s :=
  ⟨s.eng.setErr, ⟨error.code, 0⟩, hrun⟩

/-- The phase check of R131 looks at `PHASE` only. -/
theorem ignoresPorts_of_ifAccepted {run : State → Result} {s : State} (i : Instr) (e : Engine) (val : Word)
    (hrun : ∀ inputs rsp, run (s.withPorts inputs rsp) =
      ifAccepted i (s.withPorts inputs rsp) (respond e val (s.withPorts inputs rsp))) : IgnoresPorts run s := by
  cases h : accepts i s.eng.phase with
  | false =>
    exact ignoresPorts_of_raise .invalidState fun inputs rsp =>
      (hrun inputs rsp).trans (ifAccepted_of_not_accepts h)
  | true => exact ⟨e, ⟨.ok, val⟩, fun inputs rsp => (hrun inputs rsp).trans (ifAccepted_of_accepts h)⟩

theorem exec_ignoresPorts (i : Instr) (s : State) : IgnoresPorts (exec i) s := by
  cases i with
  | init k0 k1 => exact ignoresPorts_of_ifAccepted (.init k0 k1) (initEngine k0 k1 s.eng) 0 fun _ _ => rfl
  | feed n d0 =>
    by_cases hn : n ≤ 8#4
    · exact ignoresPorts_of_ifAccepted (.feed n d0) (feedEngine s.build n d0 s.eng) 0 fun _ _ => if_pos hn
    · exact ignoresPorts_of_raise .illegalCommand fun _ _ => exec_feed_illegal n d0 _ hn
  | final =>
    exact ignoresPorts_of_ifAccepted .final (finalEngine s.build s.eng) (finalResult s.build s.eng).2 fun _ _ => rfl
  | status =>
    exact ignoresPorts_of_ifAccepted .status s.eng ((statusByte s.build s.eng).setWidth 64) fun _ _ => rfl
  | rddigest => exact ignoresPorts_of_ifAccepted .rddigest s.eng s.eng.digest fun _ _ => rfl

theorem runCommand_ignoresPorts (cw : CommandWord) (s : State) : IgnoresPorts (runCommand cw) s := by
  cases hcw : decode cw with
  | command i =>
    rw [show runCommand cw = exec i from funext (runCommand_legal hcw)]
    exact exec_ignoresPorts i s
  | illegal why => exact ignoresPorts_of_raise .illegalCommand fun _ _ => runCommand_illegal hcw _

/-! ### A step on a presented command is its transaction -/

theorem transact_of_runCommand {cw : CommandWord} {build : Variant} {e : Engine} {t : State}
    (h : runCommand cw { build := build, eng := e, inputs := [], rsp := none } = .next t) :
    transact build e cw = (t.eng, t.rsp) := by
  have hstep : step (commandState build e cw) = .next t := h
  rw [transact, hstep]

/-- The machine after the transaction of `cw`, the ports' inputs as they were. -/
def State.transacted (s : State) (cw : CommandWord) : State :=
  { s with eng := (transact s.build s.eng cw).1, rsp := (transact s.build s.eng cw).2 }

theorem runCommand_eq_transacted (cw : CommandWord) (s : State) : runCommand cw s = .next (s.transacted cw) := by
  obtain ⟨e, r, h⟩ := runCommand_ignoresPorts cw s
  have htransact : transact s.build s.eng cw = (e, some r) := transact_of_runCommand (h [] none)
  rw [State.transacted, htransact]
  exact h s.inputs s.rsp

theorem transact_rsp_ne_none (build : Variant) (e : Engine) (cw : CommandWord) : (transact build e cw).2 ≠ none := by
  obtain ⟨e', r, h⟩ := runCommand_ignoresPorts cw { build := build, eng := e, inputs := [], rsp := none }
  rw [transact_of_runCommand (h [] none)]
  exact Option.some_ne_none r

/-- The commands after `cw` wait through its transaction. -/
theorem step_presentAll_cons (cw : CommandWord) (cws : List CommandWord) (s : State) :
    step (s.presentAll (cw :: cws)) = .next ((s.transacted cw).presentAll cws) := by
  rw [presentAll_cons, step_present]
  exact runCommand_eq_transacted cw (s.presentAll cws)

/-! ### A run of a command list is the fold of the transactions -/

/-- The machine after the transactions of `cws` in order. -/
def State.transactedAll (s : State) (cws : List CommandWord) : State := cws.foldl State.transacted s

@[simp] theorem transactedAll_build (s : State) (cws : List CommandWord) : (s.transactedAll cws).build = s.build := by
  induction cws generalizing s with
  | nil => rfl
  | cons cw cws ih => exact ih (s.transacted cw)

@[simp] theorem transactedAll_inputs (s : State) (cws : List CommandWord) : (s.transactedAll cws).inputs = s.inputs := by
  induction cws generalizing s with
  | nil => rfl
  | cons cw cws ih => exact ih (s.transacted cw)

@[simp] theorem transactedAll_eng (s : State) (cws : List CommandWord) :
    (s.transactedAll cws).eng = transactAll s.build s.eng cws := by
  induction cws generalizing s with
  | nil => rfl
  | cons cw cws ih => exact ih (s.transacted cw)

/-- A run takes the commands presented first as their transactions and goes on with the rest. -/
theorem runSteps_presentAll_append (first rest : List CommandWord) (k : Nat) (s : State) :
    runSteps (first.length + k) (s.presentAll (first ++ rest)) = runSteps k ((s.transactedAll first).presentAll rest) := by
  induction first generalizing s with
  | nil => rw [List.length_nil, Nat.zero_add]; rfl
  | cons cw first ih =>
    calc runSteps ((cw :: first).length + k) (s.presentAll (cw :: first ++ rest))
        _ = runSteps (first.length + k + 1) (s.presentAll (cw :: (first ++ rest))) := by
          rw [List.length_cons, Nat.add_right_comm, List.cons_append]
        _ = runSteps (first.length + k) ((s.transacted cw).presentAll (first ++ rest)) :=
          runSteps_succ _ (step_presentAll_cons cw (first ++ rest) s)
        _ = runSteps k ((s.transactedAll (cw :: first)).presentAll rest) := ih (s.transacted cw)

theorem runSteps_presentAll (cws : List CommandWord) (s : State) :
    runSteps cws.length (s.presentAll cws) = .next (s.transactedAll cws) := by
  simpa using runSteps_presentAll_append cws [] 0 s

/-- The step on command `k` is its transaction from the fold of the commands before it, the ones after it still waiting. -/
theorem runSteps_presentAll_of_getElem? {cws : List CommandWord} {k : Nat} {cw : CommandWord} (h : cws[k]? = some cw)
    (s : State) : runSteps (k + 1) (s.presentAll cws) =
      .next (((s.transactedAll (cws.take k)).transacted cw).presentAll (cws.drop (k + 1))) := by
  obtain ⟨hk, rfl⟩ := List.getElem?_eq_some_iff.mp h
  have hsplit : cws.take k ++ cws[k] :: cws.drop (k + 1) = cws := by
    rw [← List.drop_eq_getElem_cons hk, List.take_append_drop]
  have hrun := runSteps_presentAll_append (cws.take k) (cws[k] :: cws.drop (k + 1)) 1 s
  rw [hsplit, List.length_take_of_le (Nat.le_of_lt hk)] at hrun
  exact hrun.trans (runSteps_succ 0 (step_presentAll_cons _ _ _))

/-- Settles O34: a run is the fold of the transactions (`runSteps_presentAll`), and every transaction gives a response. -/
theorem commandSequenceIsAFold : Obligations.CommandSequenceIsAFold := by
  intro s cws
  refine ⟨⟨s.transactedAll cws, runSteps_presentAll cws s, transactedAll_eng s cws, transactedAll_inputs s cws,
    transactedAll_build s cws⟩, fun k cw h => ⟨_, runSteps_presentAll_of_getElem? h s, ?_, transact_rsp_ne_none _ _ _⟩⟩
  simp only [presentAll_rsp, State.transacted, transactedAll_build, transactedAll_eng]

end Sys2Proof.Machine
end

section
/-! PROOFS. The decoder, one equation per opcode of R71, and from them the illegal words of R77 and the bits R73 ignores. -/

namespace Sys2Proof

/-! ### What the decoder answers, by opcode -/

/-- The eight bits above the data words are the header byte (R70). -/
theorem headerByte_append (h : Byte) (d1 d0 : Word) : headerByte (h ++ d1 ++ d0) = h := by
  apply BitVec.eq_of_getLsbD_eq
  intro i hi
  rw [headerByte, BitVec.getLsbD_extractLsb']
  change (decide (i < 8) && BitVec.getLsbD (w := 8 + 64 + 64) (h ++ d1 ++ d0) (128 + i)) = _
  rw [BitVec.getLsbD_append, BitVec.getLsbD_append]
  simp [hi, show ¬ 128 + i < 64 by omega, show ¬ 128 + i - 64 < 64 by omega, Nat.sub_sub]

section Opcode
variable {cw : CommandWord}

theorem decode_of_opInit (h : opField cw = 0x1#4) :
    decode cw = decodePlain (nField cw) (.init (d0Field cw) (d1Field cw)) := by
  simp [decode, h]

theorem decode_of_opFeed (h : opField cw = 0x2#4) : decode cw = decodeFeed (nField cw) (d0Field cw) := by
  simp [decode, h]

theorem decode_of_opFinal (h : opField cw = 0x3#4) : decode cw = decodePlain (nField cw) .final := by
  simp [decode, h]

theorem decode_of_opStatus (h : opField cw = 0x4#4) : decode cw = decodePlain (nField cw) .status := by
  simp [decode, h]

theorem decode_of_opRddigest (h : opField cw = 0x5#4) : decode cw = decodePlain (nField cw) .rddigest := by
  simp [decode, h]

theorem decode_of_opReserved (h : opField cw = 0x0#4 ∨ 0x6#4 ≤ opField cw) : decode cw = .illegal .reservedOpcode := by
  have hne : ∀ op : BitVec 4, op = 0x0#4 ∨ 0x6#4 ≤ op →
      op ≠ 0x1#4 ∧ op ≠ 0x2#4 ∧ op ≠ 0x3#4 ∧ op ≠ 0x4#4 ∧ op ≠ 0x5#4 := by decide
  obtain ⟨h1, h2, h3, h4, h5⟩ := hne _ h
  simp [decode, h1, h2, h3, h4, h5]

/-- INIT, FINAL, STATUS and RDDIGEST are decoded alike: they want a count of 0. -/
theorem decode_of_opPlain (h : opField cw = 0x1#4 ∨ opField cw = 0x3#4 ∨ opField cw = 0x4#4 ∨ opField cw = 0x5#4) :
    ∃ i, decode cw = decodePlain (nField cw) i := by
  obtain h | h | h | h := h
  · exact ⟨_, decode_of_opInit h⟩
  · exact ⟨_, decode_of_opFinal h⟩
  · exact ⟨_, decode_of_opStatus h⟩
  · exact ⟨_, decode_of_opRddigest h⟩

end Opcode

/-- The opcodes, by the case of R77 they can fall under. -/
theorem opcode_cases : ∀ op : BitVec 4,
    (op = 0x0#4 ∨ 0x6#4 ≤ op) ∨ op = 0x2#4 ∨ op = 0x1#4 ∨ op = 0x3#4 ∨ op = 0x4#4 ∨ op = 0x5#4 := by
  decide

theorem decodePlain_illegal_iff (n : BitVec 4) (i : Instr) : (∃ why, decodePlain n i = .illegal why) ↔ n ≠ 0#4 := by
  by_cases hn : n = 0#4 <;> simp [decodePlain, hn]

theorem decodeFeed_illegal_iff (n : BitVec 4) (d0 : Word) : (∃ why, decodeFeed n d0 = .illegal why) ↔ 9#4 ≤ n := by
  have hle : n ≤ 8#4 ↔ ¬ 9#4 ≤ n := by bv_omega
  by_cases hn : 9#4 ≤ n <;> simp [decodeFeed, hle, hn]

theorem decode?_isSome_iff (cw : CommandWord) : (decode? cw).isSome = true ↔ ¬ ∃ why, decode cw = .illegal why := by
  unfold decode?
  cases decode cw <;> simp

end Sys2Proof

namespace Sys2Proof.Machine

/-! ### The illegal words -/

/-- The decoder refuses exactly the words of R77, by the three cases of the rule. -/
theorem decode_illegal_iff (cw : CommandWord) : (∃ why, decode cw = .illegal why) ↔ IllegalWord cw := by
  obtain hreserved | hfeed | hplain := opcode_cases (opField cw)
  · exact iff_of_true ⟨_, decode_of_opReserved hreserved⟩ (.inl hreserved)
  · rw [decode_of_opFeed hfeed, decodeFeed_illegal_iff]
    simp [IllegalWord, hfeed]
  · obtain ⟨i, hi⟩ := decode_of_opPlain hplain
    rw [hi, decodePlain_illegal_iff]
    obtain h | h | h | h := hplain <;> simp [IllegalWord, h]

/-- A word is illegal by its header alone (R70): the same header over any data is as legal. -/
theorem illegalWord_iff_header (cw : CommandWord) :
    IllegalWord cw ↔ IllegalWord (packCommand (opField cw) (nField cw) 0 0) := by
  simp only [IllegalWord, opField_pack, nField_pack]

/-- The list of R77 against its three cases, over all 256 headers. -/
theorem not_illegalWord_pack_iff : ∀ op n : BitVec 4,
    ¬ IllegalWord (packCommand op n 0 0) ↔ op ++ n ∈ legalHeaders := by
  decide

theorem not_illegalWord_iff (cw : CommandWord) : ¬ IllegalWord cw ↔ headerByte cw ∈ legalHeaders := by
  rw [illegalWord_iff_header, not_illegalWord_pack_iff, headerByte_eq]

theorem runCommand_illegalWord {cw : CommandWord} (h : IllegalWord cw) (s : State) :
    runCommand cw s = .next (afterError .illegalCommand s) := by
  obtain ⟨why, hwhy⟩ := (decode_illegal_iff cw).mpr h
  exact runCommand_illegal hwhy s

/-- Settles O3: the decoder refuses by the three cases (`decode_illegal_iff`), the header alone decides between them
(`not_illegalWord_iff`), and a refused word raises. -/
theorem illegalWordsExactly : Obligations.IllegalWordsExactly := by
  refine ⟨decode_illegal_iff, fun h d1 d0 => ?_, by decide, rfl, rfl, fun _ s h => runCommand_illegalWord h s⟩
  rw [decode?_isSome_iff, decode_illegal_iff, not_illegalWord_iff, headerByte_append]

/-! ### The ignored data bits -/

theorem decode_pack_init (k0 k1 : Word) : decode (packCommand 0x1#4 0#4 k1 k0) = .command (.init k0 k1) := by
  rw [decode_of_opInit (opField_pack ..), nField_pack, d0Field_pack, d1Field_pack]
  rfl

theorem decode_pack_feed {n : BitVec 4} (hn : n ≤ 8#4) (d1 d0 : Word) :
    decode (packCommand 0x2#4 n d1 d0) = .command (.feed n d0) := by
  rw [decode_of_opFeed (opField_pack ..), nField_pack, d0Field_pack]
  exact if_pos hn

/-- FINAL, STATUS and RDDIGEST are decoded from the header alone. -/
theorem decode_pack_noOperand {op : BitVec 4} (hop : op = 0x3#4 ∨ op = 0x4#4 ∨ op = 0x5#4) (n : BitVec 4)
    (d1 d1' d0 d0' : Word) : decode (packCommand op n d1 d0) = decode (packCommand op n d1' d0') := by
  obtain rfl | rfl | rfl := hop
  · simp only [decode_of_opFinal, opField_pack, nField_pack]
  · simp only [decode_of_opStatus, opField_pack, nField_pack]
  · simp only [decode_of_opRddigest, opField_pack, nField_pack]

theorem runCommand_congr {cw cw' : CommandWord} (h : decode cw = decode cw') (s : State) :
    runCommand cw s = runCommand cw' s := by
  rw [runCommand, runCommand, h]

theorem beatBytes_congr {n : BitVec 4} {d0 d0' : Word} (h : ∀ i, i < n.toNat → laneByte d0 i = laneByte d0' i) :
    beatBytes n d0 = beatBytes n d0' :=
  List.map_congr_left fun i hi => h i (List.mem_range.mp hi)

/-- A FEED reads nothing of its data word but the bytes of the beat. -/
theorem exec_feed_congr {n : BitVec 4} {d0 d0' : Word} (h : beatBytes n d0 = beatBytes n d0') (s : State) :
    exec (.feed n d0) s = exec (.feed n d0') s := by
  have heng : feedEngine s.build n d0 s.eng = feedEngine s.build n d0' s.eng := by rw [feedEngine, feedEngine, h]
  change execFeed n d0 s = execFeed n d0' s
  rw [execFeed, execFeed, heng]
  rfl

/-- Settles O6: FINAL, STATUS and RDDIGEST decode without their data words (`decode_pack_noOperand`), and of the data words of a
FEED only the bytes of the beat are read (`exec_feed_congr`). -/
theorem unusedDataBitsAreIgnored : Obligations.UnusedDataBitsAreIgnored := by
  refine ⟨decode_pack_init, fun n d0 _ => ⟨beatBytes_length n d0, fun _ => beatBytes_getElem? n d0⟩,
    fun n d1 d1' d0 d0' s hn hlanes => ?_, fun op d1 d1' d0 d0' s hop => ?_⟩
  · rw [runCommand_legal (decode_pack_feed hn d1 d0), runCommand_legal (decode_pack_feed hn d1' d0')]
    exact exec_feed_congr (beatBytes_congr hlanes) s
  · exact runCommand_congr (decode_pack_noOperand hop 0#4 d1 d1' d0 d0') s

end Sys2Proof.Machine
end

section
/-! PROOFS. The answers of the commands by phase (R130), the plain commands STATUS and RDDIGEST from their words to their answers
(R138, R139), and ABSORB_BYTE lane by lane (R133). -/

namespace Sys2Proof.Machine

/-! ### The transition table -/

theorem feedEngine_phase (build : Variant) (n : BitVec 4) (d0 : Word) (e : Engine) :
    (feedEngine build n d0 e).phase = e.phase := by
  obtain ⟨-, -, -, hphase, -⟩ := feedEngine_frame build n d0 e
  exact hphase

/-- Settles O15: each column is what its command can do (`exec_feed_cases`, `exec_final_cases`, `exec_rddigest_cases`), and an
illegal word raises in every phase (`runCommand_illegalWord`). -/
theorem phaseTransitionTable : Obligations.PhaseTransitionTable := by
  intro s
  refine ⟨fun k0 k1 => ⟨_, _, exec_init k0 k1 s, rfl, rfl, rfl⟩, fun n d0 hn => ?feed, ?final,
    ⟨_, _, exec_status s, rfl, rfl, rfl⟩, ?rddigest, fun cw hcw => ⟨_, _, runCommand_illegalWord hcw s, rfl, rfl, rfl⟩⟩
  case feed =>
    obtain ⟨hphase, h⟩ | ⟨hphase, h⟩ := exec_feed_cases n d0 s hn
    · exact ⟨_, _, h, rfl, feedEngine_phase s.build n d0 s.eng, (if_pos hphase).symm⟩
    · exact ⟨_, _, h, rfl, rfl, (if_neg hphase).symm⟩
  case final =>
    obtain ⟨hphase, h⟩ | ⟨hphase, h⟩ := exec_final_cases s
    · exact ⟨_, _, h, rfl, (if_pos hphase).symm, (if_pos hphase).symm⟩
    · exact ⟨_, _, h, rfl, (if_neg hphase).symm, (if_neg hphase).symm⟩
  case rddigest =>
    obtain ⟨hphase, h⟩ | ⟨hphase, h⟩ := exec_rddigest_cases s
    · exact ⟨_, _, h, rfl, rfl, (if_pos hphase).symm⟩
    · exact ⟨_, _, h, rfl, rfl, (if_neg hphase).symm⟩

/-! ### ABSORB_BYTE -/

theorem absorbByte_of_lt {e : Engine} (h : e.nbuf.toNat < 7) (c : Nat) (x : Byte) :
    absorbByte c e x = { e with buf := writeBufByte e.buf e.nbuf.toNat x, nbuf := e.nbuf + 1 } :=
  if_pos h

theorem absorbByte_of_full {e : Engine} (h : e.nbuf.toNat = 7) (c : Nat) (x : Byte) :
    absorbByte c e x = { e with v := compress c e.v (x ++ e.buf), buf := 0, nbuf := 0 } :=
  if_neg (by omega)

/-- Into a lane that is zero, the write of a byte is an inclusive or (R133). -/
theorem writeBufByte_eq_or {buf : BitVec 56} {j : Nat} (hzero : bufByte buf j = 0#8) (x : Byte) :
    writeBufByte buf j x = buf ||| (x.setWidth 56 <<< (8 * j)) := by
  apply BitVec.eq_of_getLsbD_eq
  intro i hi
  rw [writeBufByte_getLsbD, BitVec.getLsbD_or, BitVec.getLsbD_shiftLeft, BitVec.getLsbD_setWidth]
  by_cases hlane : 8 * j ≤ i ∧ i < 8 * j + 8
  · have hbit : buf.getLsbD i = false := by
      have hlow := bufByte_getLsbD buf j (i - 8 * j)
      rw [hzero, Nat.add_sub_cancel' hlane.1] at hlow
      simpa [show i - 8 * j < 8 by omega] using hlow.symm
    rw [hbit]
    simp [hlane, hi, show ¬ i < 8 * j by omega, show i - 8 * j < 56 by omega]
  · by_cases hbelow : i < 8 * j
    · simp [hlane, hi, hbelow]
    · simp [hlane, hi, BitVec.getLsbD_of_ge x (i - 8 * j) (by omega)]

/-- Settles O20: below seven pending bytes the write sets its lane alone (`bufByte_writeBufByte`) and into a zero lane is an
inclusive or (`writeBufByte_eq_or`); at seven the absorbed word is the byte over the pending ones (`laneByte_byteOverBuf`). -/
theorem absorbByteEffect : Obligations.AbsorbByteEffect := by
  intro c e x
  refine ⟨fun hlt => ⟨_, absorbByte_of_lt hlt c x, fun j _ => bufByte_writeBufByte e.buf e.nbuf.toNat j x hlt⟩,
    fun hfull => ⟨_, absorbByte_of_full hfull c x, laneByte_byteOverBuf x e.buf (by decide), fun j hj => ?_⟩,
    fun hlt hzero => ?_⟩
  · rw [laneByte_byteOverBuf x e.buf (by omega), if_neg (by omega)]
  · rw [absorbByte_of_lt hlt]
    exact writeBufByte_eq_or (hzero e.nbuf.toNat (Nat.le_refl _) (by omega)) x

/-! ### The words of STATUS and RDDIGEST -/

/-- INIT, FINAL, STATUS and RDDIGEST run when their count is 0 (R70). -/
theorem runCommand_of_plain {cw : CommandWord} {i : Instr} (hcw : decode cw = decodePlain (nField cw) i)
    (hn : nField cw = 0#4) (s : State) : runCommand cw s = exec i s := by
  apply runCommand_legal
  rw [hcw, hn]
  rfl

theorem runCommand_pack_status (d1 d0 : Word) (s : State) :
    runCommand (packCommand 0x4#4 0#4 d1 d0) s = exec .status s :=
  runCommand_of_plain (decode_of_opStatus (opField_pack ..)) (nField_pack ..) s

theorem runCommand_pack_rddigest (d1 d0 : Word) (s : State) :
    runCommand (packCommand 0x5#4 0#4 d1 d0) s = exec .rddigest s :=
  runCommand_of_plain (decode_of_opRddigest (opField_pack ..)) (nField_pack ..) s

/-- INIT, FINAL, STATUS and RDDIGEST with a count are illegal (R77). -/
theorem runCommand_pack_count {op n : BitVec 4} (hop : op = 0x1#4 ∨ op = 0x3#4 ∨ op = 0x4#4 ∨ op = 0x5#4)
    (hn : n ≠ 0#4) (d1 d0 : Word) (s : State) :
    runCommand (packCommand op n d1 d0) s = .next (afterError .illegalCommand s) := by
  apply runCommand_illegalWord
  refine .inr (.inr ?_)
  rw [opField_pack, nField_pack]
  exact ⟨hop, hn⟩

/-! ### STATUS -/

theorem toNat_append_eq_add {m n : Nat} (x : BitVec m) (y : BitVec n) :
    (x ++ y).toNat = x.toNat * 2 ^ n + y.toNat := by
  rw [BitVec.toNat_append, Nat.shiftLeft_eq, Nat.mul_comm, Nat.two_pow_add_eq_or_of_lt y.isLt]

/-- The status view as a number: the phase in bits 1:0, `ERR` in bit 2, the variant in bit 3, 0 above (R29). -/
theorem statusByte_toNat (build : Variant) (e : Engine) :
    (statusByte build e).toNat = e.phase.bits.toNat + e.err.toNat * 4 + (variantBit build).toNat * 8 := by
  rw [statusByte, toNat_append_eq_add, toNat_append_eq_add, toNat_append_eq_add, BitVec.toNat_ofBool, BitVec.toNat_zero]
  omega

/-- Settles O25: STATUS answers the status view (`exec_status`), whose number is `statusByte_toNat`; after an illegal word `ERR` is
set, and STATUS shows it (`exec_status_val_getLsbD_two`). -/
theorem statusReadsPhaseErrAndVariant : Obligations.StatusReadsPhaseErrAndVariant := by
  refine ⟨runCommand_pack_status, fun s => ⟨_, exec_status s, ?value⟩, fun n d1 d0 s hn => ?count⟩
  case value =>
    rw [BitVec.toNat_setWidth_of_le (by decide), statusByte_toNat]
    refine congr (congrArg HAdd.hAdd (congr (congrArg HAdd.hAdd ?_) ?_)) ?_
    · cases s.eng.phase <;> rfl
    · cases s.eng.err <;> rfl
    · cases s.build <;> rfl
  case count =>
    have hstatus := exec_status (afterError .illegalCommand s)
    exact ⟨_, _, _, runCommand_pack_count (by decide) hn d1 d0 s, rfl, hstatus, rfl,
      exec_status_val_getLsbD_two hstatus rfl⟩

/-! ### RDDIGEST -/

theorem exec_rddigest_of_done {s : State} (h : s.eng.phase = .done) :
    exec .rddigest s = .next { s with rsp := some ⟨.ok, s.eng.digest⟩ } :=
  ifAccepted_of_accepts ((accepts_rddigest _).mpr h)

theorem exec_rddigest_of_ne_done {s : State} (h : s.eng.phase ≠ .done) :
    exec .rddigest s = .next (afterError .invalidState s) := by
  obtain ⟨hdone, -⟩ | ⟨-, hexec⟩ := exec_rddigest_cases s
  · exact absurd hdone h
  · exact hexec

/-- FINAL has answered the digest it stored, so RDDIGEST repeats its response (R137, R139). -/
theorem exec_rddigest_after_final {s t : State} (hphase : s.eng.phase = .absorb) (ht : exec .final s = .next t) :
    exec .rddigest t = .next t := by
  obtain ⟨-, hfinal⟩ | ⟨hne, -⟩ := exec_final_cases s
  · obtain rfl := respond_next (hfinal.symm.trans ht)
    exact exec_rddigest_of_done rfl
  · exact absurd hphase hne

/-- INIT clears the digest and leaves `DONE` (R132, R139). -/
theorem exec_rddigest_after_init {k0 k1 : Word} {s t : State} (ht : exec (.init k0 k1) s = .next t) :
    t.eng.digest = 0 ∧ exec .rddigest t = .next (afterError .invalidState t) := by
  obtain rfl := respond_next ((exec_init k0 k1 s).symm.trans ht)
  exact ⟨rfl, exec_rddigest_of_ne_done (by simp)⟩

/-- Settles O26: RDDIGEST answers in `DONE` and is refused elsewhere, and the state after FINAL or INIT tells which. -/
theorem rdDigestAnswersOnlyWhenDone : Obligations.RdDigestAnswersOnlyWhenDone :=
  ⟨runCommand_pack_rddigest, fun _ => exec_rddigest_of_done, fun _ => exec_rddigest_of_ne_done,
    fun _ d1 d0 s hn => runCommand_pack_count (by decide) hn d1 d0 s, fun _ _ => exec_rddigest_after_final,
    fun _ _ _ _ => exec_rddigest_after_init⟩

end Sys2Proof.Machine
end

section
/-! PROOFS. The two errors (R170 to R173): when each is raised, and what it changes. -/

namespace Sys2Proof

/-! ### The decoder lets only well-formed commands through -/

theorem decodePlain_wellFormed {n : BitVec 4} {i j : Instr} (hi : i.wellFormed = true)
    (h : decodePlain n i = .command j) : j.wellFormed = true := by
  by_cases hn : n = 0#4
  · obtain rfl := Decoded.command.inj ((if_pos hn).symm.trans h)
    exact hi
  · cases (if_neg hn).symm.trans h

theorem decodeFeed_wellFormed {n : BitVec 4} {d0 : Word} {j : Instr} (h : decodeFeed n d0 = .command j) :
    j.wellFormed = true := by
  by_cases hn : n ≤ 8#4
  · obtain rfl := Decoded.command.inj ((if_pos hn).symm.trans h)
    exact decide_eq_true hn
  · cases (if_neg hn).symm.trans h

theorem decode_wellFormed {cw : CommandWord} {i : Instr} (h : decode cw = .command i) : i.wellFormed = true := by
  obtain hreserved | hfeed | hinit | hfinal | hstatus | hrddigest := opcode_cases (opField cw)
  · cases (decode_of_opReserved hreserved).symm.trans h
  · exact decodeFeed_wellFormed ((decode_of_opFeed hfeed).symm.trans h)
  · exact decodePlain_wellFormed rfl ((decode_of_opInit hinit).symm.trans h)
  · exact decodePlain_wellFormed rfl ((decode_of_opFinal hfinal).symm.trans h)
  · exact decodePlain_wellFormed rfl ((decode_of_opStatus hstatus).symm.trans h)
  · exact decodePlain_wellFormed rfl ((decode_of_opRddigest hrddigest).symm.trans h)

end Sys2Proof

namespace Sys2Proof.Machine

/-- A word that R77 does not list spells a well-formed command. -/
theorem decode_of_not_illegalWord {cw : CommandWord} (h : ¬ IllegalWord cw) :
    ∃ i, decode cw = .command i ∧ i.wellFormed = true := by
  cases hcw : decode cw with
  | command i => exact ⟨i, rfl, decode_wellFormed hcw⟩
  | illegal why => exact absurd ((decode_illegal_iff cw).mp ⟨why, hcw⟩) h

/-! ### The responses of the two ways a command ends -/

theorem respond_code {e : Engine} {val : Word} {s t : State} {r : Rsp} (ht : respond e val s = .next t)
    (hr : t.rsp = some r) : r.code = .ok := by
  obtain rfl := respond_next ht
  obtain rfl := Option.some.inj hr
  rfl

theorem raise_rsp {error : CommandError} {s t : State} {r : Rsp} (ht : raise error s = .next t)
    (hr : t.rsp = some r) : r = ⟨error.code, 0⟩ := by
  obtain rfl := raise_next ht
  exact (Option.some.inj hr).symm

/-! ### Which way a command ends -/

/-- The refusing cells of the table of R130, as R171 lists them. -/
theorem accepts_eq_false_iff (i : Instr) (p : Phase) :
    accepts i p = false ↔
      ((∃ n d0, i = .feed n d0) ∨ i = .final) ∧ p ≠ .absorb ∨ i = .rddigest ∧ p ≠ .done := by
  rw [← Bool.not_eq_true]
  cases i <;> simp

/-- A well-formed command is its phase check and then a response (R131). -/
theorem exec_eq_ifAccepted {i : Instr} (hi : i.wellFormed = true) (s : State) :
    ∃ e val, exec i s = ifAccepted i s (respond e val s) := by
  cases i with
  | init k0 k1 => exact ⟨_, _, rfl⟩
  | feed n d0 => exact ⟨_, _, if_pos (of_decide_eq_true hi)⟩
  | final => exact ⟨_, _, rfl⟩
  | status => exact ⟨_, _, rfl⟩
  | rddigest => exact ⟨_, _, rfl⟩

/-- The phase alone decides whether a well-formed command responds or raises, and what it raises is `INVALID_STATE`. -/
theorem exec_wellFormed_cases {i : Instr} (hi : i.wellFormed = true) (s : State) :
    (accepts i s.eng.phase = true ∧ ∃ e val, exec i s = respond e val s) ∨
    (accepts i s.eng.phase = false ∧ exec i s = raise .invalidState s) := by
  obtain ⟨e, val, hexec⟩ := exec_eq_ifAccepted hi s
  rw [hexec]
  obtain ⟨haccepts, h⟩ | hrefused := ifAccepted_cases i s (respond e val s)
  · exact .inl ⟨haccepts, e, val, h⟩
  · exact .inr hrefused

theorem runCommand_responds_or_raises (cw : CommandWord) (s : State) :
    (∃ e val, runCommand cw s = respond e val s) ∨ (∃ error, runCommand cw s = raise error s) := by
  cases hcw : decode cw with
  | command i =>
    rw [runCommand_legal hcw]
    exact exec_responds_or_raises i s
  | illegal why => exact .inr ⟨_, runCommand_illegal hcw s⟩

/-! ### When each error is raised, and what it changes -/

theorem exec_invalidState_iff {i : Instr} (hi : i.wellFormed = true) (s : State) :
    (∃ t r, exec i s = .next t ∧ t.rsp = some r ∧ r.code = .invalidState) ↔ accepts i s.eng.phase = false := by
  obtain ⟨haccepts, e, val, h⟩ | ⟨hrefused, h⟩ := exec_wellFormed_cases hi s
  · rw [haccepts]
    refine iff_of_false ?_ (by decide)
    rintro ⟨t, r, ht, hr, hcode⟩
    have hok := respond_code (h.symm.trans ht) hr
    rw [hcode] at hok
    cases hok
  · exact iff_of_true ⟨_, _, h, rfl, rfl⟩ hrefused

/-- Settles O16: `INVALID_STATE` is the answer where the phase check refuses (`exec_invalidState_iff`), and that is in the cases
of R171 (`accepts_eq_false_iff`). -/
theorem invalidStateExactly : Obligations.InvalidStateExactly :=
  fun i s hi => (exec_invalidState_iff hi s).trans (accepts_eq_false_iff i s.eng.phase)

/-- A legal word ends in `OK` or, by its phase, in `INVALID_STATE` (R172). -/
theorem runCommand_legalWord_code_ne {cw : CommandWord} {s t : State} {r : Rsp} (hcw : ¬ IllegalWord cw)
    (ht : runCommand cw s = .next t) (hr : t.rsp = some r) : r.code ≠ .illegalCommand := by
  obtain ⟨i, hi, hwf⟩ := decode_of_not_illegalWord hcw
  rw [runCommand_legal hi] at ht
  obtain ⟨-, e, val, h⟩ | ⟨-, h⟩ := exec_wellFormed_cases hwf s
  · rw [respond_code (h.symm.trans ht) hr]
    decide
  · rw [raise_rsp (h.symm.trans ht) hr]
    decide

/-- Settles O17: an illegal word raises in every state (`runCommand_illegalWord`); a legal one is well-formed, and a well-formed
command raises nothing but `INVALID_STATE` (`runCommand_legalWord_code_ne`). -/
theorem illegalCommandInEveryPhase : Obligations.IllegalCommandInEveryPhase :=
  ⟨fun _ s hcw => runCommand_illegalWord hcw s, fun _ _ _ _ hcw ht hr => runCommand_legalWord_code_ne hcw ht hr⟩

theorem commandError_code_bits (error : CommandError) : error.code.bits = 1#4 ∨ error.code.bits = 2#4 := by
  cases error with
  | invalidState => exact .inl rfl
  | illegalCommand => exact .inr rfl

/-- Settles O18: a command that does not respond raises (`runCommand_responds_or_raises`), and `raise` changes `ERR` and the
response alone (`raise_next`). -/
theorem errorChangesOnlyErr : Obligations.ErrorChangesOnlyErr := by
  intro cw s t r ht hr hcode
  obtain ⟨e, val, h⟩ | ⟨error, h⟩ := runCommand_responds_or_raises cw s
  · exact absurd (respond_code (h.symm.trans ht) hr) hcode
  · obtain rfl := raise_rsp (h.symm.trans ht) hr
    exact ⟨raise_next (h.symm.trans ht), commandError_code_bits error⟩

end Sys2Proof.Machine
end

section
/-! PROOFS. Hardware reset (R200): the input that cuts a command short runs as the idle one does, and leaves the reset engine. -/

namespace Sys2Proof.Machine

theorem runInput_hardwareReset (cut : Option CommandWord) (s : State) :
    runInput (.hardwareReset cut) s = .next { s with eng := Engine.reset, rsp := none } := rfl

/-- Settles O35: the step takes the reset input (`step_input`), which puts the engine to its reset value whatever it cuts short
(`runInput_hardwareReset`); the registers of `Engine.reset` are the literals of R35. -/
theorem hardwareResetFromAnyState : Obligations.HardwareResetFromAnyState := by
  intro s cut rest hinputs
  calc step s
      _ = runInput (.hardwareReset cut) { s with inputs := rest } := step_input hinputs
      _ = .next { s with inputs := rest, eng := Engine.reset, rsp := none } := runInput_hardwareReset cut _

end Sys2Proof.Machine
end

section
/-! PROOFS. Encoder and decoder against each other (R70, R71, R81), and what the header decides. -/

namespace Sys2Proof

/-- Settles O1: the decoder's equation for each packed word (`decode_pack_init`, `decode_pack_feed`); the words without operands
are fixed. -/
theorem decodeOfEncodeIsTheCommand : Obligations.DecodeOfEncodeIsTheCommand := by
  intro i hi
  cases i with
  | init k0 k1 => exact Machine.decode_pack_init k0 k1
  | feed n d0 => exact Machine.decode_pack_feed (of_decide_eq_true hi) 0#64 d0
  | final => decide
  | status => decide
  | rddigest => decide

theorem decodePlain_eq_command {n : BitVec 4} {i j : Instr} (h : decodePlain n i = .command j) : n = 0#4 ∧ j = i := by
  by_cases hn : n = 0#4
  · exact ⟨hn, (Decoded.command.inj ((if_pos hn).symm.trans h)).symm⟩
  · cases (if_neg hn).symm.trans h

theorem decodeFeed_eq_command {n : BitVec 4} {d0 : Word} {j : Instr} (h : decodeFeed n d0 = .command j) :
    n ≤ 8#4 ∧ j = .feed n d0 := by
  by_cases hn : n ≤ 8#4
  · exact ⟨hn, (Decoded.command.inj ((if_pos hn).symm.trans h)).symm⟩
  · cases (if_neg hn).symm.trans h

/-- The commands a word can decode to, with the fields it needs (R71, R72). -/
theorem decode_eq_command {cw : CommandWord} {i : Instr} (h : decode cw = .command i) :
    (opField cw = 0x2#4 ∧ nField cw ≤ 8#4 ∧ i = .feed (nField cw) (d0Field cw)) ∨
    (opField cw = 0x1#4 ∧ nField cw = 0#4 ∧ i = .init (d0Field cw) (d1Field cw)) ∨
    (opField cw = 0x3#4 ∧ nField cw = 0#4 ∧ i = .final) ∨
    (opField cw = 0x4#4 ∧ nField cw = 0#4 ∧ i = .status) ∨
    (opField cw = 0x5#4 ∧ nField cw = 0#4 ∧ i = .rddigest) := by
  obtain hreserved | hop | hop | hop | hop | hop := opcode_cases (opField cw)
  · cases (decode_of_opReserved hreserved).symm.trans h
  · exact .inl ⟨hop, decodeFeed_eq_command ((decode_of_opFeed hop).symm.trans h)⟩
  · exact .inr (.inl ⟨hop, decodePlain_eq_command ((decode_of_opInit hop).symm.trans h)⟩)
  · exact .inr (.inr (.inl ⟨hop, decodePlain_eq_command ((decode_of_opFinal hop).symm.trans h)⟩))
  · exact .inr (.inr (.inr (.inl ⟨hop, decodePlain_eq_command ((decode_of_opStatus hop).symm.trans h)⟩)))
  · exact .inr (.inr (.inr (.inr ⟨hop, decodePlain_eq_command ((decode_of_opRddigest hop).symm.trans h)⟩)))

/-- The opcode of a command (R71). -/
def Instr.opcode : Instr → BitVec 4
  | .init _ _ => 0x1#4
  | .feed _ _ => 0x2#4
  | .final => 0x3#4
  | .status => 0x4#4
  | .rddigest => 0x5#4

/-- The count field of a command (R72). -/
def Instr.count : Instr → BitVec 4
  | .feed n _ => n
  | _ => 0#4

theorem headerByte_encode (i : Instr) : headerByte (encode i) = i.opcode ++ i.count := by
  cases i <;> exact headerByte_pack ..

/-- The header of a command is that of any word that decodes to it. -/
theorem decode_header {cw : CommandWord} {i : Instr} (h : decode cw = .command i) :
    i.opcode = opField cw ∧ i.count = nField cw := by
  obtain ⟨hop, -, rfl⟩ | ⟨hop, hn, rfl⟩ | ⟨hop, hn, rfl⟩ | ⟨hop, hn, rfl⟩ | ⟨hop, hn, rfl⟩ := decode_eq_command h
  · exact ⟨hop.symm, rfl⟩
  all_goals exact ⟨hop.symm, hn.symm⟩

theorem headerByte_encode_of_decode {cw : CommandWord} {i : Instr} (h : decode cw = .command i) :
    headerByte (encode i) = headerByte cw := by
  obtain ⟨hop, hn⟩ := decode_header h
  rw [headerByte_encode, headerByte_eq, hop, hn]

/-- Settles O2: a decoded command is well-formed (`decode_wellFormed`), has the word's header (`headerByte_encode_of_decode`), and
`decode_eq_command` names its operands. -/
theorem decodedOperandsAreTheFields : Obligations.DecodedOperandsAreTheFields := by
  intro cw i h
  refine ⟨decode_wellFormed h, headerByte_encode_of_decode h, ?init, ?feed⟩
  case init =>
    rintro k0 k1 rfl
    obtain ⟨-, -, hi⟩ | ⟨-, -, hi⟩ | ⟨-, -, hi⟩ | ⟨-, -, hi⟩ | ⟨-, -, hi⟩ := decode_eq_command h <;> cases hi
    exact ⟨rfl, rfl⟩
  case feed =>
    rintro n d0 rfl
    obtain ⟨-, -, hi⟩ | ⟨-, -, hi⟩ | ⟨-, -, hi⟩ | ⟨-, -, hi⟩ | ⟨-, -, hi⟩ := decode_eq_command h <;> cases hi
    exact ⟨rfl, rfl⟩

theorem decodePlain_eq_illegal (n : BitVec 4) (i : Instr) (why : DecodeRefusal) :
    decodePlain n i = .illegal why ↔ n ≠ 0#4 ∧ .countNotZero = why := by
  by_cases hn : n = 0#4 <;> simp [decodePlain, hn]

theorem decodeFeed_eq_illegal (n : BitVec 4) (d0 : Word) (why : DecodeRefusal) :
    decodeFeed n d0 = .illegal why ↔ ¬ n ≤ 8#4 ∧ .feedCountTooLarge = why := by
  by_cases hn : n ≤ 8#4 <;> simp [decodeFeed, hn]

theorem extractLsb'_extractLsb' {m : Nat} (w : BitVec m) {start len first n : Nat} (h : first + n ≤ len) :
    (w.extractLsb' start len).extractLsb' first n = w.extractLsb' (start + first) n := by
  apply BitVec.eq_of_getLsbD_eq
  intro i hi
  simp [hi, show first + i < len by omega, Nat.add_assoc]

/-- Opcode and count are the two halves of the header byte (R70). -/
theorem opField_nField_of_headerByte {cw cw' : CommandWord} (h : headerByte cw = headerByte cw') :
    opField cw = opField cw' ∧ nField cw = nField cw' := by
  have hop : ∀ w : CommandWord, opField w = (headerByte w).extractLsb' 4 4 := fun w => by
    rw [opField, headerByte, extractLsb'_extractLsb' _ (by decide)]
  have hn : ∀ w : CommandWord, nField w = (headerByte w).extractLsb' 0 4 := fun w => by
    rw [nField, headerByte, extractLsb'_extractLsb' _ (by decide)]
  rw [hop, hop cw', hn, hn cw', h]
  exact ⟨rfl, rfl⟩

/-- The reason for a refusal lies in the header: by opcode, the decoder refuses for one reason, on the count alone (R77). -/
theorem decode_eq_illegal_congr {cw cw' : CommandWord} (h : headerByte cw = headerByte cw') (why : DecodeRefusal) :
    decode cw = .illegal why ↔ decode cw' = .illegal why := by
  obtain ⟨hop, hn⟩ := opField_nField_of_headerByte h
  obtain hreserved | hfeed | hplain := opcode_cases (opField cw')
  · rw [decode_of_opReserved hreserved, decode_of_opReserved (by rwa [hop])]
  · rw [decode_of_opFeed hfeed, decode_of_opFeed (hop.trans hfeed), decodeFeed_eq_illegal, decodeFeed_eq_illegal, hn]
  · obtain ⟨i', hi'⟩ := decode_of_opPlain hplain
    obtain ⟨i, hi⟩ := decode_of_opPlain (cw := cw) (by rwa [hop])
    rw [hi, hi', decodePlain_eq_illegal, decodePlain_eq_illegal, hn]

/-- Settles O4: the header decides the refusal and its reason (`decode_eq_illegal_congr`), and a decoded command has the word's
header (`headerByte_encode_of_decode`). -/
theorem headerAloneDecides : Obligations.HeaderAloneDecides := by
  refine fun cw cw' h => ⟨decode_eq_illegal_congr h, fun i i' hi hi' => ?_⟩
  rw [headerByte_encode_of_decode hi, headerByte_encode_of_decode hi', h]

/-- Settles O5: the lines and words are fixed, so the assembler and the decoder compute them. -/
theorem workedEncodings : Obligations.WorkedEncodings := by
  unfold Obligations.WorkedEncodings
  decide

end Sys2Proof
end

section
/-! PROOFS. What a command does when its phase accepts it, and from it what a command word and a step can do. -/

namespace Sys2Proof.Machine

/-! ### The effect of an accepted command -/

/-- The registers an accepted command leaves (R132 to R139). -/
def effect (i : Instr) (build : Variant) (e : Engine) : Engine :=
  match i with
  | .init k0 k1 => initEngine k0 k1 e
  | .feed n d0 => feedEngine build n d0 e
  | .final => finalEngine build e
  | .status => e
  | .rddigest => e

/-- The value an accepted command answers (R76). -/
def answer (i : Instr) (build : Variant) (e : Engine) : Word :=
  match i with
  | .init _ _ => 0
  | .feed _ _ => 0
  | .final => (finalResult build e).2
  | .status => (statusByte build e).setWidth 64
  | .rddigest => e.digest

/-- A well-formed command is its phase check and then its effect and answer (R131). -/
theorem exec_eq_effect {i : Instr} (hi : i.wellFormed = true) (s : State) :
    exec i s = ifAccepted i s (respond (effect i s.build s.eng) (answer i s.build s.eng) s) := by
  cases i with
  | init k0 k1 => rfl
  | feed n d0 => exact if_pos (of_decide_eq_true hi)
  | final => rfl
  | status => rfl
  | rddigest => rfl

/-- The three ways a command word ends: illegal, accepted, or refused by its phase (R131). -/
theorem runCommand_cases (cw : CommandWord) (s : State) :
    (∃ why, decode cw = .illegal why ∧ runCommand cw s = raise .illegalCommand s) ∨
    (∃ i, decode cw = .command i ∧ accepts i s.eng.phase = true ∧
      runCommand cw s = respond (effect i s.build s.eng) (answer i s.build s.eng) s) ∨
    (∃ i, decode cw = .command i ∧ accepts i s.eng.phase = false ∧ runCommand cw s = raise .invalidState s) := by
  cases hcw : decode cw with
  | illegal why => exact .inl ⟨why, rfl, runCommand_illegal hcw s⟩
  | command i =>
    rw [runCommand_legal hcw, exec_eq_effect (decode_wellFormed hcw)]
    obtain ⟨haccepts, h⟩ | ⟨hrefused, h⟩ := ifAccepted_cases i s (respond (effect i s.build s.eng) (answer i s.build s.eng) s)
    · exact .inr (.inl ⟨i, rfl, haccepts, h⟩)
    · exact .inr (.inr ⟨i, rfl, hrefused, h⟩)

/-- The registers after a command word: as they were, with `ERR` set, or the effect of an accepted command. -/
theorem runCommand_eng_cases {cw : CommandWord} {s t : State} (ht : runCommand cw s = .next t) :
    t.eng = s.eng.setErr ∨ ∃ i, accepts i s.eng.phase = true ∧ t.eng = effect i s.build s.eng := by
  obtain ⟨-, -, h⟩ | ⟨i, -, haccepts, h⟩ | ⟨-, -, -, h⟩ := runCommand_cases cw s
  · obtain rfl := raise_next (h.symm.trans ht)
    exact .inl rfl
  · obtain rfl := respond_next (h.symm.trans ht)
    exact .inr ⟨i, haccepts, rfl⟩
  · obtain rfl := raise_next (h.symm.trans ht)
    exact .inl rfl

/-! ### What a step can do -/

/-- A step idles, resets, or runs one command word (R57, R181, R200). -/
theorem step_cases {s t : State} (ht : step s = .next t) :
    (s.inputs = [] ∧ t = s) ∨
    (∃ cut rest, s.inputs = .hardwareReset cut :: rest ∧ t = { s with eng := Engine.reset, inputs := rest, rsp := none }) ∨
    (∃ cw rest, s.inputs = .command cw :: rest ∧ runCommand cw { s with inputs := rest } = .next t) := by
  cases hinputs : s.inputs with
  | nil => exact .inl ⟨rfl, (Host.Outcome.next.inj ((step_idle hinputs).symm.trans ht)).symm⟩
  | cons x rest =>
    have hrun := (step_input hinputs).symm.trans ht
    cases x with
    | command cw => exact .inr (.inr ⟨cw, rest, rfl, hrun⟩)
    | hardwareReset cut => exact .inr (.inl ⟨cut, rest, rfl, hardwareReset_next hrun⟩)

/-- Settles O32: the step takes the word (`step_input`) and the word runs its command (`runCommand_legal`). -/
theorem stepRunsTheDecodedCommand : Obligations.StepRunsTheDecodedCommand :=
  fun _ _ _ _ hinputs hcw => (step_input hinputs).trans (runCommand_legal hcw _)

/-- Settles O33: a step with no input is idle (`step_idle`). -/
theorem idleEngineHoldsItsState : Obligations.IdleEngineHoldsItsState :=
  fun _ => step_idle

end Sys2Proof.Machine
end

section
/-! PROOFS. The invariant of reachable states (R32): it holds at reset, and every step keeps it. -/

namespace Sys2Proof.Machine

/-! ### The buffer is zero above its count -/

/-- Item 3 of R32: the lanes of `BUF` from `NBUF` on are 0. -/
def ZeroAbove (e : Engine) : Prop := ∀ j, e.nbuf.toNat ≤ j → j ≤ 6 → bufByte e.buf j = 0#8

@[simp] theorem bufByte_zero (j : Nat) : bufByte 0#56 j = 0#8 := by
  simp [bufByte]

theorem zeroAbove_of_buf_zero {e : Engine} (h : e.buf = 0#56) : ZeroAbove e := by
  intro j _ _
  rw [h, bufByte_zero]

/-- The write goes to lane `NBUF`, which the new count no longer covers. -/
theorem absorbByte_zeroAbove {e : Engine} (h : ZeroAbove e) (c : Nat) (x : Byte) : ZeroAbove (absorbByte c e x) := by
  obtain ⟨hlt, habsorb⟩ | ⟨-, habsorb⟩ := absorbByte_cases c e x
  · intro j hj hj6
    rw [absorbByte_nbuf, Nat.mod_eq_of_lt (by omega)] at hj
    rw [habsorb, bufByte_writeBufByte _ _ _ _ hlt, if_neg (by omega)]
    exact h j (by omega) hj6
  · exact zeroAbove_of_buf_zero (by rw [habsorb]; rfl)

theorem absorbBytes_zeroAbove {e : Engine} (h : ZeroAbove e) (c : Nat) (xs : List Byte) :
    ZeroAbove (absorbBytes c xs e) := by
  induction xs generalizing e with
  | nil => exact h
  | cons x xs ih => exact ih (absorbByte_zeroAbove h c x)

/-- The lanes and the length of a beat grow by the same count. -/
theorem feedEngine_bufferInv {e : Engine} (h : BufferInv e) (build : Variant) (n : BitVec 4) (d0 : Word) :
    BufferInv (feedEngine build n d0 e) := by
  obtain ⟨hzero, hcount⟩ := h
  refine ⟨absorbBytes_zeroAbove hzero (roundsC build) (beatBytes n d0), ?_⟩
  have hnbuf : (feedEngine build n d0 e).nbuf.toNat = (e.nbuf.toNat + n.toNat) % 8 := by
    rw [← beatBytes_length n d0]
    exact absorbBytes_nbuf (roundsC build) (beatBytes n d0) e
  rw [hnbuf, hcount, feedEngine_len, BitVec.toNat_add, BitVec.toNat_setWidth]
  omega

/-! ### The invariant -/

/-- Settles O38: every register of R35 is 0. -/
theorem reachableInvAtReset : Obligations.ReachableInvAtReset :=
  ⟨⟨zeroAbove_of_buf_zero rfl, rfl⟩, fun _ => ⟨rfl, rfl, rfl, rfl, rfl, rfl, rfl⟩, fun _ => rfl⟩

theorem setErr_reachableInv {e : Engine} (h : ReachableInv e) : ReachableInv e.setErr := h

/-- FEED and FINAL run in `ABSORB` only, where nothing is claimed of the data registers but the buffer and the digest. -/
theorem effect_reachableInv {i : Instr} {e : Engine} (haccepts : accepts i e.phase = true) (h : ReachableInv e)
    (build : Variant) : ReachableInv (effect i build e) := by
  obtain ⟨hbuffer, -, habsorb⟩ := id h
  cases i with
  | init k0 k1 => exact ⟨⟨zeroAbove_of_buf_zero rfl, rfl⟩, fun huninit => Phase.noConfusion huninit, fun _ => rfl⟩
  | feed n d0 =>
    have hphase := (accepts_feed n d0 e.phase).mp haccepts
    obtain ⟨-, -, hdigest, hphase', -⟩ := feedEngine_frame build n d0 e
    refine ⟨feedEngine_bufferInv hbuffer build n d0, fun huninit => ?_, fun _ => hdigest.trans (habsorb hphase)⟩
    exact Phase.noConfusion (hphase.symm.trans (hphase'.symm.trans huninit))
  | final => exact ⟨hbuffer, fun huninit => Phase.noConfusion huninit, fun hdone => Phase.noConfusion hdone⟩
  | status => exact h
  | rddigest => exact h

/-- Settles O39: an idle step keeps the engine, reset leaves the reset engine, and a command word sets `ERR`, which the invariant
does not mention, or has the effect of an accepted command (`effect_reachableInv`). -/
theorem everyStepKeepsReachableInv : Obligations.EveryStepKeepsReachableInv := by
  intro s t h ht
  obtain ⟨-, rfl⟩ | ⟨-, -, -, rfl⟩ | ⟨cw, rest, -, hrun⟩ := step_cases ht
  · exact h
  · exact reachableInvAtReset
  · obtain herr | ⟨i, haccepts, heffect⟩ := runCommand_eng_cases hrun
    · rw [herr]
      exact setErr_reachableInv h
    · rw [heffect]
      exact effect_reachableInv haccepts h s.build

end Sys2Proof.Machine
end

section
/-! PROOFS. The PRF Core: the datapath operations (R103), INITSTATE (R102), and that SIPROUND, COMPRESS and the state part of
FINALCORE are bijections (R104 to R107). -/

namespace Sys2Proof.Machine

/-! ### Operations -/

theorem add64_toNat (a b : Word) : (add64 a b).toNat = (a.toNat + b.toNat) % 2 ^ 64 :=
  BitVec.toNat_add a b

theorem xor64_getLsbD (a b : Word) (i : Nat) : (xor64 a b).getLsbD i = Bool.xor (a.getLsbD i) (b.getLsbD i) :=
  BitVec.getLsbD_xor

/-- Rotation moves bit `i` up by `n`, around the end of the word (R103). -/
theorem rotl64_getLsbD (x : Word) {n i : Nat} (hn : n < 64) (hi : i < 64) :
    (rotl64 x n).getLsbD ((i + n) % 64) = x.getLsbD i := by
  rw [rotl64_eq_rotateLeft x hn, BitVec.getLsbD_rotateLeft, Nat.mod_eq_of_lt hn]
  by_cases hwrap : i + n < 64
  · rw [Nat.mod_eq_of_lt hwrap]
    simp [hwrap, show ¬ i + n < n by omega]
  · rw [show (i + n) % 64 = i + n - 64 by omega]
    simp [show i + n - 64 < n by omega, show 64 - n + (i + n - 64) = i by omega]

/-- Settles O7: one law for each operation; every amount the datapath rotates by is below 64. -/
theorem wordOperationLaws : Obligations.WordOperationLaws := by
  refine ⟨add64_toNat, xor64_getLsbD, fun x n i hn hi => rotl64_getLsbD x ?_ hi⟩
  have hall : ∀ n ∈ [13, 16, 17, 21, 32], n < 64 := by decide
  exact hall n hn

/-! ### INITSTATE -/

/-- What two words made from one key word differ in does not depend on the key. -/
theorem xor64_xor_xor64 (k a b : Word) : xor64 k a ^^^ xor64 k b = a ^^^ b := by
  rw [xor64, xor64, BitVec.xor_comm k a, BitVec.xor_assoc, ← BitVec.xor_assoc k, BitVec.xor_self, BitVec.zero_xor]

theorem initState_v0_xor_v2 (k0 k1 : Word) : (initState k0 k1).v0 ^^^ (initState k0 k1).v2 = 0x1f160a001e161714 :=
  (xor64_xor_xor64 k0 initConst0 initConst2).trans (by decide)

theorem initState_v1_xor_v3 (k0 k1 : Word) : (initState k0 k1).v1 ^^^ (initState k0 k1).v3 = 0x100a160317100a1e :=
  (xor64_xor_xor64 k1 initConst1 initConst3).trans (by decide)

/-- Settles O8: INIT loads INITSTATE (`exec_init`); the zero state would lack the difference every key leaves between `v0` and `v2`
(`initState_v0_xor_v2`). -/
theorem initStateOfTheKey : Obligations.InitStateOfTheKey := by
  refine ⟨fun _ _ => rfl, fun k0 k1 s t ht => ?load, fun k0 k1 => ⟨initState_v0_xor_v2 k0 k1, initState_v1_xor_v3 k0 k1⟩,
    by decide, fun k0 k1 hzero => ?zero, by decide⟩
  case load =>
    obtain rfl := respond_next ((exec_init k0 k1 s).symm.trans ht)
    exact ⟨rfl, xor64_xor64 k0 initConst0⟩
  case zero =>
    have hdiff := initState_v0_xor_v2 k0 k1
    rw [hzero] at hdiff
    exact absurd hdiff (by decide)

/-! ### SIPROUND -/

/-- Settles O9: the rotations are those of a bit vector (`rotl64_eq_rotateLeft`), and the statements then compose to the two
halves. -/
theorem sipRoundInTwoHalves : Obligations.SipRoundInTwoHalves := by
  intro v0 v1 v2 v3
  simp only [sipRound, rotl64_eq_rotateLeft _ (show 13 < 64 by decide), rotl64_eq_rotateLeft _ (show 16 < 64 by decide),
    rotl64_eq_rotateLeft _ (show 17 < 64 by decide), rotl64_eq_rotateLeft _ (show 21 < 64 by decide),
    rotl64_eq_rotateLeft _ (show 32 < 64 by decide)]
  rfl

/-- The backward statements undo the fourteen, last first. -/
theorem sipRoundInv_sipRound (v : VState) : sipRoundInv (sipRound v) = v := by
  simp [sipRound, sipRoundInv, xor64_xor64, add64_sub, rotl64_rotl64]

theorem sipRound_sipRoundInv (v : VState) : sipRound (sipRoundInv v) = v := by
  simp [sipRound, sipRoundInv, xor64_xor64, sub_add64, rotl64_rotl64]

/-- Settles O10: the round and its inverse undo each other on both sides. -/
theorem sipRoundIsAPermutation : Obligations.SipRoundIsAPermutation :=
  fun v => ⟨sipRoundInv_sipRound v, sipRound_sipRoundInv v⟩

/-- A map of state tuples that another map undoes on both sides. -/
def Reversible (f : VState → VState) : Prop := ∃ g : VState → VState, (∀ v, g (f v) = v) ∧ ∀ w, f (g w) = w

theorem Reversible.injective {f : VState → VState} (hf : Reversible f) {v v' : VState} (h : f v = f v') : v = v' := by
  obtain ⟨g, hg, -⟩ := hf
  rw [← hg v, h, hg]

theorem Reversible.surjective {f : VState → VState} (hf : Reversible f) (w : VState) : ∃ v, f v = w := by
  obtain ⟨g, -, hg⟩ := hf
  exact ⟨g w, hg w⟩

theorem Reversible.comp {f f' : VState → VState} (hf : Reversible f) (hf' : Reversible f') :
    Reversible fun v => f (f' v) := by
  obtain ⟨g, hgf, hfg⟩ := hf
  obtain ⟨g', hgf', hfg'⟩ := hf'
  refine ⟨fun w => g' (g w), fun v => ?_, fun w => ?_⟩
  · simp only [hgf, hgf']
  · simp only [hfg', hfg]

theorem sipRounds_reversible (n : Nat) : Reversible (sipRounds n) := by
  induction n with
  | zero => exact ⟨id, fun _ => rfl, fun _ => rfl⟩
  | succ n ih => exact ih.comp ⟨sipRoundInv, sipRoundInv_sipRound, sipRound_sipRoundInv⟩

/-! ### COMPRESS -/

/-- An exclusive or into one word of the state undoes itself. -/
theorem xorV0_reversible (m : Word) : Reversible fun v => { v with v0 := xor64 v.v0 m } := by
  refine ⟨fun v => { v with v0 := xor64 v.v0 m }, fun v => ?_, fun v => ?_⟩ <;> simp only [xor64_xor64]

theorem xorV2_reversible (m : Word) : Reversible fun v => { v with v2 := xor64 v.v2 m } := by
  refine ⟨fun v => { v with v2 := xor64 v.v2 m }, fun v => ?_, fun v => ?_⟩ <;> simp only [xor64_xor64]

theorem xorV3_reversible (m : Word) : Reversible fun v => { v with v3 := xor64 v.v3 m } := by
  refine ⟨fun v => { v with v3 := xor64 v.v3 m }, fun v => ?_, fun v => ?_⟩ <;> simp only [xor64_xor64]

theorem compress_reversible (c : Nat) (m : Word) : Reversible fun v => compress c v m :=
  (xorV0_reversible m).comp ((sipRounds_reversible c).comp (xorV3_reversible m))

theorem xor64_zero (x : Word) : xor64 x 0 = x := BitVec.xor_zero

/-- Under the zero word nothing but the rounds is left (R106). -/
theorem compress_zero (c : Nat) (v : VState) : compress c v 0 = sipRounds c v := by
  simp only [compress, xor64_zero]

/-- Settles O11: COMPRESS is two exclusive ors around reversible rounds (`compress_reversible`); the zero state is a fixed point
of the rounds (`sipRounds_zeroState`). -/
theorem compressByAFixedWordIsABijection : Obligations.CompressByAFixedWordIsABijection := by
  intro c m
  have hrev := compress_reversible c m
  exact ⟨fun _ _ => hrev.injective, hrev.surjective, compress_zero c,
    (compress_zero c _).trans (sipRounds_zeroState c), fun _ => rfl⟩

/-! ### FINALCORE -/

theorem finalCore_state_reversible (d : Nat) : Reversible fun v => (finalCore d v).1 :=
  (sipRounds_reversible d).comp (xorV2_reversible finalConst)

theorem finalConst_getLsbD (i : Nat) : finalConst.getLsbD i = decide (i < 8) := by
  by_cases hi : i < 64
  · have hall : ∀ j : Fin 64, finalConst.getLsbD j = decide (j.val < 8) := by decide
    exact hall ⟨i, hi⟩
  · rw [BitVec.getLsbD_of_ge finalConst i (by omega)]
    exact (decide_eq_false (by omega)).symm

/-- Settles O12: the rounds are reversible and so is the exclusive or before them (`finalCore_state_reversible`), whose constant
has the bits 7:0 (`finalConst_getLsbD`). -/
theorem finalCoreStateIsABijection : Obligations.FinalCoreStateIsABijection := by
  intro d
  have hrev := finalCore_state_reversible d
  refine ⟨fun _ _ => hrev.injective, hrev.surjective, finalCore_digest d, fun v v' h0 h1 h3 h2 => ?_⟩
  have hv2 : xor64 v.v2 finalConst = v'.v2 := by
    apply BitVec.eq_of_getLsbD_eq
    intro i _
    rw [xor64_getLsbD, finalConst_getLsbD, h2]
  have hv : { v with v2 := xor64 v.v2 finalConst } = v' := by rw [hv2, h0, h1, h3]
  exact congrArg (sipRounds d) hv

/-! ### Fixed values -/

/-- Settles O13: the counts are the literals of R9. -/
theorem roundCountsOfTheVariants : Obligations.RoundCountsOfTheVariants :=
  ⟨rfl, rfl, rfl, rfl⟩

/-- Settles O14: the inputs are fixed, so the function computes the digests. -/
theorem publishedDigests : Obligations.PublishedDigests := by
  unfold Obligations.PublishedDigests
  decide

end Sys2Proof.Machine
end

section
/-! PROOFS. The commands one by one: what INIT, FEED and FINAL leave (R132 to R137), the frame of each command (R31), and which may be
repeated (R61). -/

namespace Sys2Proof.Machine

/-! ### INIT -/

/-- Settles O19: INIT responds with `initEngine` in every phase (`exec_init`), and a count makes its word illegal
(`runCommand_pack_count`). -/
theorem initConstructsAHasher : Obligations.InitConstructsAHasher :=
  ⟨exec_init, fun _ k0 k1 s hn => runCommand_pack_count (by decide) hn k1 k0 s⟩

/-! ### FEED -/

theorem exec_feed_of_absorb {n : BitVec 4} {s : State} (hn : n ≤ 8#4) (h : s.eng.phase = .absorb) (d0 : Word) :
    exec (.feed n d0) s = respond (feedEngine s.build n d0 s.eng) 0 s := by
  obtain ⟨-, hexec⟩ | ⟨hne, -⟩ := exec_feed_cases n d0 s hn
  · exact hexec
  · exact absurd h hne

theorem exec_feed_of_ne_absorb {n : BitVec 4} {s : State} (hn : n ≤ 8#4) (h : s.eng.phase ≠ .absorb) (d0 : Word) :
    exec (.feed n d0) s = .next (afterError .invalidState s) := by
  obtain ⟨habsorb, -⟩ | ⟨-, hexec⟩ := exec_feed_cases n d0 s hn
  · exact absurd habsorb h
  · exact hexec

/-- The bytes of a beat are its lanes in increasing order (R73). -/
theorem absorbBytes_beatBytes (c : Nat) (n : BitVec 4) (d0 : Word) (e : Engine) :
    absorbBytes c (beatBytes n d0) e =
      (List.range n.toNat).foldl (fun e i => absorbByte c e (laneByte d0 i)) e :=
  List.foldl_map

theorem feedEngine_zero (build : Variant) (d0 : Word) (e : Engine) : feedEngine build 0#4 d0 e = e := by
  change { e with len := e.len + 0#64 } = e
  rw [BitVec.add_zero]

/-- Settles O21: an accepted FEED absorbs the lanes of its beat (`absorbBytes_beatBytes`), of which an empty beat has none
(`feedEngine_zero`). -/
theorem feedAbsorbsItsLanes : Obligations.FeedAbsorbsItsLanes := by
  intro n d0 s
  refine ⟨fun hn hphase => ?lanes, ?empty, fun hn hphase => exec_feed_of_ne_absorb hn hphase d0,
    fun hn => exec_feed_illegal n d0 s (by bv_omega)⟩
  case lanes =>
    rw [exec_feed_of_absorb hn hphase, feedEngine, absorbBytes_beatBytes]
    rfl
  case empty =>
    rintro rfl hphase
    rw [exec_feed_of_absorb (by decide) hphase, feedEngine_zero]
    rfl

theorem exec_feed_responds_or_raises (n : BitVec 4) (d0 : Word) (s : State) :
    exec (.feed n d0) s = respond (feedEngine s.build n d0 s.eng) 0 s ∨ ∃ error, exec (.feed n d0) s = raise error s := by
  by_cases hn : n ≤ 8#4
  · obtain ⟨-, h⟩ | ⟨-, h⟩ := exec_feed_cases n d0 s hn
    · exact .inl h
    · exact .inr ⟨_, h⟩
  · exact .inr ⟨_, exec_feed_illegal n d0 s hn⟩

theorem raise_code_ne_ok {error : CommandError} {s t : State} {r : Rsp} (ht : raise error s = .next t)
    (hr : t.rsp = some r) : r.code ≠ .ok := by
  rw [raise_rsp ht hr]
  exact commandError_code_ne_ok error

/-- Settles O28: an accepted FEED is framed by `feedEngine_frame` and answers OK; an error sets `ERR` alone. -/
theorem feedFrame : Obligations.FeedFrame := by
  intro n d0 s t ht
  obtain h | ⟨error, h⟩ := exec_feed_responds_or_raises n d0 s
  · rw [h] at ht
    obtain ⟨hk0, hk1, hdigest, hphase, herr⟩ := feedEngine_frame s.build n d0 s.eng
    have hok : ∀ r, t.rsp = some r → r.code = .ok := fun _ hr => respond_code ht hr
    obtain rfl := respond_next ht
    exact ⟨hk0, hk1, hdigest, hphase, rfl, rfl, fun _ _ _ => herr, fun r hr hne => absurd (hok r hr) hne⟩
  · rw [h] at ht
    have hne : ∀ r, t.rsp = some r → r.code ≠ .ok := fun _ hr => raise_code_ne_ok ht hr
    obtain rfl := raise_next ht
    exact ⟨rfl, rfl, rfl, rfl, rfl, rfl, fun r hr hok => absurd hok (hne r hr), fun _ _ _ => ⟨rfl, rfl, rfl, rfl⟩⟩

/-! ### FINAL -/

theorem exec_final_of_absorb {s : State} (h : s.eng.phase = .absorb) :
    exec .final s = respond (finalEngine s.build s.eng) (finalResult s.build s.eng).2 s := by
  obtain ⟨-, hexec⟩ | ⟨hne, -⟩ := exec_final_cases s
  · exact hexec
  · exact absurd h hne

theorem exec_final_of_ne_absorb {s : State} (h : s.eng.phase ≠ .absorb) :
    exec .final s = .next (afterError .invalidState s) := by
  obtain ⟨habsorb, -⟩ | ⟨-, hexec⟩ := exec_final_cases s
  · exact absurd habsorb h
  · exact hexec

/-- An accepted FINAL leaves `DONE`, where a second one is refused. -/
theorem exec_final_after_final {s t : State} (hphase : s.eng.phase = .absorb) (ht : exec .final s = .next t) :
    exec .final t = .next (afterError .invalidState t) := by
  obtain rfl := respond_next ((exec_final_of_absorb hphase).symm.trans ht)
  exact exec_final_of_ne_absorb (by simp)

/-- A refused FINAL in `DONE` leaves the digest to be read again. -/
theorem exec_rddigest_after_refused_final {s t : State} (hphase : s.eng.phase = .done) (ht : exec .final s = .next t) :
    exec .rddigest t = .next { t with rsp := some ⟨.ok, s.eng.digest⟩ } := by
  have hne : s.eng.phase ≠ .absorb := by simp [hphase]
  obtain rfl := Host.Outcome.next.inj ((exec_final_of_ne_absorb hne).symm.trans ht)
  exact exec_rddigest_of_done hphase

/-- Settles O24: an accepted FINAL is FINALCORE after COMPRESS of the final word (R136, R137); a refused one sets `ERR` alone. -/
theorem finalAnswersTheDigest : Obligations.FinalAnswersTheDigest := by
  refine ⟨fun s hphase => ?accepted, fun s => exec_final_of_ne_absorb, fun s t => exec_rddigest_after_refused_final,
    fun n d1 d0 s hn => runCommand_pack_count (by decide) hn d1 d0 s⟩
  have hword : s.eng.len.extractLsb' 0 8 ++ s.eng.buf = finalWord s.eng := by
    rw [finalWord, BitVec.setWidth_eq_extractLsb' (by decide)]
  rw [hword]
  exact exec_final_of_absorb hphase

/-- Settles O29: INIT responds in every phase (`exec_init`); FINAL writes its three registers or sets `ERR` (`exec_final_cases`). -/
theorem initAndFinalFrame : Obligations.InitAndFinalFrame := by
  refine ⟨fun k0 k1 s t ht => ?init, fun s t ht => ?final⟩
  case init =>
    obtain rfl := respond_next ((exec_init k0 k1 s).symm.trans ht)
    exact ⟨rfl, rfl, rfl⟩
  case final =>
    obtain ⟨-, h⟩ | ⟨-, h⟩ := exec_final_cases s
    · obtain rfl := respond_next (h.symm.trans ht)
      exact ⟨rfl, rfl, rfl, rfl, rfl, rfl, rfl, fun _ _ _ => rfl⟩
    · rw [h] at ht
      have hne : ∀ r, t.rsp = some r → r.code ≠ .ok := fun _ hr => raise_code_ne_ok ht hr
      obtain rfl := raise_next ht
      exact ⟨rfl, rfl, rfl, rfl, rfl, rfl, rfl, fun r hr hok => absurd hok (hne r hr)⟩

/-! ### STATUS and RDDIGEST -/

/-- Settles O30: both respond with the registers as they are, or RDDIGEST is refused outside `DONE` (`exec_rddigest_cases`). -/
theorem readCommandsFrame : Obligations.ReadCommandsFrame := by
  rintro i s t (rfl | rfl) ht
  · obtain rfl := respond_next ((exec_status s).symm.trans ht)
    exact ⟨rfl, rfl, .inl rfl⟩
  · obtain ⟨-, h⟩ | ⟨hphase, h⟩ := exec_rddigest_cases s
    · obtain rfl := respond_next (h.symm.trans ht)
      exact ⟨rfl, rfl, .inl rfl⟩
    · obtain rfl := raise_next (h.symm.trans ht)
      exact ⟨rfl, rfl, .inr ⟨rfl, hphase, rfl⟩⟩

/-! ### Repeated commands -/

/-- INIT overwrites all it depends on but `ERR`, which it keeps. -/
theorem exec_init_twice {k0 k1 : Word} {s t u : State} (ht : exec (.init k0 k1) s = .next t)
    (hu : exec (.init k0 k1) t = .next u) : u = t := by
  obtain rfl := respond_next ((exec_init k0 k1 s).symm.trans ht)
  exact respond_next ((exec_init k0 k1 _).symm.trans hu)

theorem exec_status_twice {s t u : State} (ht : exec .status s = .next t) (hu : exec .status t = .next u) :
    u = t ∧ t.eng = s.eng := by
  obtain rfl := respond_next ((exec_status s).symm.trans ht)
  exact ⟨respond_next ((exec_status _).symm.trans hu), rfl⟩

theorem exec_rddigest_twice {s t u : State} (hphase : s.eng.phase = .done) (ht : exec .rddigest s = .next t)
    (hu : exec .rddigest t = .next u) : u = t ∧ t.eng = s.eng := by
  obtain rfl := respond_next ((exec_rddigest_of_done hphase).symm.trans ht)
  exact ⟨respond_next ((exec_rddigest_of_done (by exact hphase)).symm.trans hu), rfl⟩

/-- Settles O31: each command repeated, by the lemma of its name above. -/
theorem whichCommandsAreIdempotent : Obligations.WhichCommandsAreIdempotent := by
  refine ⟨fun _ _ _ _ _ => exec_init_twice, fun i s t u hi ht hu => ?read, fun d0 s t hphase ht => ?feed,
    fun _ _ => exec_final_after_final⟩
  case read =>
    obtain rfl | ⟨rfl, hphase⟩ := hi
    · exact exec_status_twice ht hu
    · exact exec_rddigest_twice hphase ht hu
  case feed =>
    obtain rfl := respond_next ((exec_feed_of_absorb (by decide) hphase d0).symm.trans ht)
    exact feedEngine_zero s.build d0 s.eng

end Sys2Proof.Machine
end

section
/-! PROOFS. Every command word gets one response (R74, R75, R214), and what the host sees after reset (R201). -/

namespace Sys2Proof.Machine

/-! ### The response word -/

theorem rspWord_code (r : Rsp) : r.word.extractLsb' 64 4 = r.code.bits := by
  apply BitVec.eq_of_getLsbD_eq
  intro i hi
  rw [BitVec.getLsbD_extractLsb', rspWord_getLsbD]
  simp [hi]

theorem rspWord_val (r : Rsp) : r.word.extractLsb' 0 64 = r.val := by
  apply BitVec.eq_of_getLsbD_eq
  intro i hi
  rw [BitVec.getLsbD_extractLsb', rspWord_getLsbD]
  simp [hi]

theorem respCode_bits_mem (code : RespCode) : code.bits ∈ [0x0#4, 0x1#4, 0x2#4] := by
  cases code <;> decide

/-- Settles O27: a command word responds or raises (`runCommand_responds_or_raises`); both write one response and take no input, and
the value of an error is 0. -/
theorem everyCommandGetsOneResponse : Obligations.EveryCommandGetsOneResponse := by
  intro s cw rest hinputs
  obtain ⟨e, val, h⟩ | ⟨error, h⟩ := runCommand_responds_or_raises cw { s with inputs := rest }
  · exact ⟨_, _, (step_input hinputs).trans h, rfl, rfl, rspWord_code _, rspWord_val _, respCode_bits_mem _,
      fun hok => absurd rfl hok⟩
  · exact ⟨_, _, (step_input hinputs).trans h, rfl, rfl, rspWord_code _, rspWord_val _, respCode_bits_mem _, fun _ => rfl⟩

/-! ### After reset, and only by reset -/

theorem step_build {s t : State} (ht : step s = .next t) : t.build = s.build := by
  obtain ⟨-, rfl⟩ | ⟨-, -, -, rfl⟩ | ⟨cw, rest, -, hrun⟩ := step_cases ht
  · rfl
  · rfl
  · obtain rfl := Host.Outcome.next.inj ((runCommand_eq_transacted cw _).symm.trans hrun)
    rfl

theorem effect_err (i : Instr) (build : Variant) (e : Engine) : (effect i build e).err = e.err := by
  cases i with
  | init k0 k1 => rfl
  | feed n d0 =>
    obtain ⟨-, -, -, -, herr⟩ := feedEngine_frame build n d0 e
    exact herr
  | final => rfl
  | status => rfl
  | rddigest => rfl

theorem effect_phase_ne_uninit (i : Instr) (build : Variant) {e : Engine} (h : e.phase ≠ .uninit) :
    (effect i build e).phase ≠ .uninit := by
  cases i with
  | init k0 k1 => exact Phase.noConfusion
  | feed n d0 => exact (feedEngine_phase build n d0 e).symm ▸ h
  | final => exact Phase.noConfusion
  | status => exact h
  | rddigest => exact h

/-- Nothing but hardware reset clears `ERR` or leads back to `UNINIT` (R28, R130). -/
theorem step_err_phase_of_not_reset {s t : State} (ht : step s = .next t)
    (hreset : ∀ cut rest, s.inputs ≠ .hardwareReset cut :: rest) :
    (s.eng.err = true → t.eng.err = true) ∧ (s.eng.phase ≠ .uninit → t.eng.phase ≠ .uninit) := by
  obtain ⟨-, rfl⟩ | ⟨cut, rest, hinputs, -⟩ | ⟨cw, rest, -, hrun⟩ := step_cases ht
  · exact ⟨id, id⟩
  · exact absurd hinputs (hreset cut rest)
  · obtain herr | ⟨i, -, heffect⟩ := runCommand_eng_cases hrun
    · rw [herr]
      exact ⟨fun _ => rfl, id⟩
    · rw [heffect]
      exact ⟨(effect_err i s.build s.eng).trans, effect_phase_ne_uninit i s.build⟩

/-- Settles O36: in `UNINIT` the phase checks refuse FEED, FINAL and RDDIGEST; what only reset does is
`step_err_phase_of_not_reset`. -/
theorem afterResetAndOnlyReset : Obligations.AfterResetAndOnlyReset := by
  refine ⟨fun s hreset => ?fresh, fun _ _ => step_build, fun _ _ => step_err_phase_of_not_reset⟩
  have hphase : s.eng.phase = .uninit := congrArg Engine.phase hreset
  refine ⟨⟨_, _, exec_status s, rfl, ?status⟩, fun k0 k1 => ⟨_, exec_init k0 k1 s, rfl⟩,
    fun n d0 hn => exec_feed_of_ne_absorb hn (by simp [hphase]) d0, exec_final_of_ne_absorb (by simp [hphase]),
    exec_rddigest_of_ne_done (by simp [hphase])⟩
  rw [hreset]
  cases s.build <;> decide

end Sys2Proof.Machine
end

section
/-! PROOFS. Noninterference: what no command reads (R21, R31), what alone decides the control (R110), and engines side by side
(R180). -/

namespace Sys2Proof.Machine

/-! ### Two commands of one header -/

/-- Whether a phase accepts an opcode: the table of R130 says it by the opcode. -/
def acceptsOpcode (op : BitVec 4) (p : Phase) : Bool :=
  if op = 0x2#4 ∨ op = 0x3#4 then p == .absorb else if op = 0x5#4 then p == .done else true

theorem accepts_eq_acceptsOpcode (i : Instr) (p : Phase) : accepts i p = acceptsOpcode i.opcode p := by
  cases i <;> rfl

/-- Words of one header, on engines of one phase, raise one error or are both accepted. -/
theorem runCommand_cases_of_header {cw cw' : CommandWord} {s s' : State} (hheader : headerByte cw = headerByte cw')
    (hphase : s.eng.phase = s'.eng.phase) :
    (∃ error, runCommand cw s = raise error s ∧ runCommand cw' s' = raise error s') ∨
    (∃ i i', decode cw = .command i ∧ decode cw' = .command i' ∧ i.opcode = i'.opcode ∧
      runCommand cw s = respond (effect i s.build s.eng) (answer i s.build s.eng) s ∧
      runCommand cw' s' = respond (effect i' s'.build s'.eng) (answer i' s'.build s'.eng) s') := by
  cases hcw : decode cw with
  | illegal why =>
    have hcw' := (decode_eq_illegal_congr hheader why).mp hcw
    exact .inl ⟨_, runCommand_illegal hcw s, runCommand_illegal hcw' s'⟩
  | command i =>
    cases hcw' : decode cw' with
    | illegal why => cases hcw.symm.trans ((decode_eq_illegal_congr hheader why).mpr hcw')
    | command i' =>
      obtain ⟨hi, -⟩ := decode_header hcw
      obtain ⟨hi', -⟩ := decode_header hcw'
      obtain ⟨hop, -⟩ := opField_nField_of_headerByte hheader
      have hopcode : i.opcode = i'.opcode := hi.trans (hop.trans hi'.symm)
      have haccepts : accepts i s.eng.phase = accepts i' s'.eng.phase := by
        rw [accepts_eq_acceptsOpcode, accepts_eq_acceptsOpcode, hopcode, hphase]
      rw [runCommand_legal hcw, runCommand_legal hcw', exec_eq_effect (decode_wellFormed hcw),
        exec_eq_effect (decode_wellFormed hcw')]
      cases h : accepts i s.eng.phase with
      | false =>
        exact .inl ⟨_, ifAccepted_of_not_accepts h, ifAccepted_of_not_accepts (haccepts.symm.trans h)⟩
      | true =>
        exact .inr ⟨i, i', rfl, rfl, hopcode, ifAccepted_of_accepts h, ifAccepted_of_accepts (haccepts.symm.trans h)⟩

/-- One word, on engines of one phase, raises one error or is accepted on both. -/
theorem runCommand_cases_of_phase (cw : CommandWord) {s s' : State} (hphase : s.eng.phase = s'.eng.phase) :
    (∃ error, runCommand cw s = raise error s ∧ runCommand cw s' = raise error s') ∨
    (∃ i, decode cw = .command i ∧ runCommand cw s = respond (effect i s.build s.eng) (answer i s.build s.eng) s ∧
      runCommand cw s' = respond (effect i s'.build s'.eng) (answer i s'.build s'.eng) s') := by
  obtain herror | ⟨i, i', hi, hi', -, h, h'⟩ := runCommand_cases_of_header (rfl : headerByte cw = headerByte cw) hphase
  · exact .inl herror
  · obtain rfl := Decoded.command.inj (hi.symm.trans hi')
    exact .inr ⟨i, hi, h, h'⟩

/-- The phase an accepted command leaves (R130). -/
def phaseAfter (op : BitVec 4) (p : Phase) : Phase :=
  if op = 0x1#4 then .absorb else if op = 0x3#4 then .done else p

theorem effect_phase (i : Instr) (build : Variant) (e : Engine) : (effect i build e).phase = phaseAfter i.opcode e.phase := by
  cases i with
  | init k0 k1 => rfl
  | feed n d0 => exact feedEngine_phase build n d0 e
  | final => rfl
  | status => rfl
  | rddigest => rfl

/-- Settles O48: words of one header on engines of one phase end alike (`runCommand_cases_of_header`); an accepted command leaves a
phase given by opcode and phase (`effect_phase`) and keeps `ERR` (`effect_err`). -/
theorem controlIsIndependentOfData : Obligations.ControlIsIndependentOfData := by
  intro cw cw' s s' t t' hheader hphase herr ht ht'
  obtain ⟨error, h, h'⟩ | ⟨i, i', -, -, hopcode, h, h'⟩ := runCommand_cases_of_header hheader hphase
  · obtain rfl := raise_next (h.symm.trans ht)
    obtain rfl := raise_next (h'.symm.trans ht')
    exact ⟨rfl, hphase, rfl⟩
  · obtain rfl := respond_next (h.symm.trans ht)
    obtain rfl := respond_next (h'.symm.trans ht')
    refine ⟨rfl, ?_, ?_⟩
    · simp only [effect_phase, hopcode, hphase]
    · simp only [effect_err, herr]

/-! ### What only FINAL reads -/

/-- The status view shows the variant, `ERR` and the phase, RDDIGEST the digest; INIT and FEED answer 0 (R76, R138, R139). -/
theorem answer_congr {i : Instr} (hi : i ≠ .final) {build : Variant} {e e' : Engine} (hphase : e.phase = e'.phase)
    (herr : e.err = e'.err) (hdigest : e.digest = e'.digest) : answer i build e = answer i build e' := by
  cases i with
  | init k0 k1 => rfl
  | feed n d0 => rfl
  | final => exact absurd rfl hi
  | status =>
    have hstatus : statusByte build e = statusByte build e' := by rw [statusByte, statusByte, hphase, herr]
    exact congrArg (BitVec.setWidth 64) hstatus
  | rddigest => exact hdigest

/-- Settles O47: a command word other than FINAL raises one error on both engines, or is accepted on both and answers one value
(`answer_congr`). -/
theorem internalsReachNoResponse : Obligations.InternalsReachNoResponse := by
  intro cw s s' t t' hcw hbuild hphase herr hdigest ht ht'
  obtain ⟨error, h, h'⟩ | ⟨i, hi, h, h'⟩ := runCommand_cases_of_phase cw hphase
  · obtain rfl := raise_next (h.symm.trans ht)
    obtain rfl := raise_next (h'.symm.trans ht')
    rfl
  · obtain rfl := respond_next (h.symm.trans ht)
    obtain rfl := respond_next (h'.symm.trans ht')
    have hne : i ≠ .final := fun hfinal => hcw (hi.trans (congrArg Decoded.command hfinal))
    rw [hbuild, answer_congr hne hphase herr hdigest]

/-! ### The key registers -/

/-- The registers of `e` with the triple `(V, BUF, NBUF)` of `a`, the one ABSORB_BYTE works on (R133). -/
def Engine.withAbsorbed (e a : Engine) : Engine := { e with v := a.v, buf := a.buf, nbuf := a.nbuf }

/-- ABSORB_BYTE reads nothing but its triple. -/
theorem absorbByte_withAbsorbed (c : Nat) (e a : Engine) (x : Byte) :
    absorbByte c (e.withAbsorbed a) x = e.withAbsorbed (absorbByte c a x) := by
  obtain ⟨hlt, h⟩ | ⟨hfull, h⟩ := absorbByte_cases c a x
  · rw [h]; exact if_pos hlt
  · rw [h]; exact if_neg (show ¬ a.nbuf.toNat < 7 by omega)

theorem absorbBytes_withAbsorbed (c : Nat) (xs : List Byte) (e a : Engine) :
    absorbBytes c xs (e.withAbsorbed a) = e.withAbsorbed (absorbBytes c xs a) := by
  induction xs generalizing a with
  | nil => rfl
  | cons x xs ih => rw [absorbBytes_cons, absorbBytes_cons, absorbByte_withAbsorbed, ih]

/-- The registers with another key in `K0` and `K1`. -/
def Engine.withKey (k0 k1 : Word) (e : Engine) : Engine := { e with k0 := k0, k1 := k1 }

theorem absorbBytes_withKey (c : Nat) (xs : List Byte) (k0 k1 : Word) (e : Engine) :
    absorbBytes c xs (e.withKey k0 k1) = (absorbBytes c xs e).withKey k0 k1 :=
  calc absorbBytes c xs (e.withKey k0 k1)
      _ = (e.withKey k0 k1).withAbsorbed (absorbBytes c xs e) := absorbBytes_withAbsorbed c xs (e.withKey k0 k1) e
      _ = (e.withAbsorbed (absorbBytes c xs e)).withKey k0 k1 := rfl
      _ = (absorbBytes c xs e).withKey k0 k1 := congrArg _ (absorbBytes_withAbsorbed c xs e e).symm

theorem feedEngine_withKey (build : Variant) (n : BitVec 4) (d0 k0 k1 : Word) (e : Engine) :
    feedEngine build n d0 (e.withKey k0 k1) = (feedEngine build n d0 e).withKey k0 k1 := by
  unfold feedEngine
  rw [absorbBytes_withKey]
  rfl

/-- The key registers reach no other register. -/
theorem effect_withKey (i : Instr) (build : Variant) (k0 k1 : Word) (e : Engine) :
    (effect i build (e.withKey k0 k1)).withKey 0 0 = (effect i build e).withKey 0 0 := by
  cases i with
  | init _ _ => rfl
  | feed n d0 =>
    change (feedEngine build n d0 (e.withKey k0 k1)).withKey 0 0 = (feedEngine build n d0 e).withKey 0 0
    rw [feedEngine_withKey]
    rfl
  | final => rfl
  | status => rfl
  | rddigest => rfl

theorem answer_withKey (i : Instr) (build : Variant) (k0 k1 : Word) (e : Engine) :
    answer i build (e.withKey k0 k1) = answer i build e := by
  cases i <;> rfl

/-- Settles O46: the word ends alike for both keys (`runCommand_cases_of_phase`), an error writes neither key register, and
the effect and the answer of an accepted command read neither (`effect_withKey`, `answer_withKey`). -/
theorem keyRegistersAreReadByNothing : Obligations.KeyRegistersAreReadByNothing := by
  intro cw s t u k0 k1 ht hu
  obtain ⟨error, h, h'⟩ | ⟨i, -, h, h'⟩ :=
    runCommand_cases_of_phase cw (s := s) (s' := { s with eng := s.eng.withKey k0 k1 }) rfl
  · obtain rfl := raise_next (h.symm.trans ht)
    obtain rfl := raise_next (h'.symm.trans hu)
    exact ⟨rfl, rfl⟩
  · obtain rfl := respond_next (h.symm.trans ht)
    obtain rfl := respond_next (h'.symm.trans hu)
    exact ⟨congrArg (fun val => some (Rsp.mk .ok val)) (answer_withKey i s.build k0 k1 s.eng).symm,
      (effect_withKey i s.build k0 k1 s.eng).symm⟩

/-! ### Several engines -/

theorem stepInstance_getElem?_self {engines : List State} {k : Nat} {s t : State} (hs : engines[k]? = some s)
    (ht : step s = .next t) : (stepInstance k engines)[k]? = some t := by
  rw [stepInstance, List.getElem?_modify_eq, hs, Option.map_eq_map, Option.map_some, ht]

/-- Settles O50: `List.modify` at one place neither reads nor writes another. -/
theorem enginesAreIndependent : Obligations.EnginesAreIndependent :=
  fun engines _ _ hne => ⟨List.getElem?_modify_ne _ engines hne.symm, fun _ _ => stepInstance_getElem?_self,
    List.modify_modify_ne _ _ engines hne.symm⟩

end Sys2Proof.Machine
end

section
/-! PROOFS. Bytes and words: the lanes of little-endian words (R51), the final word (R136), and absorbing up to eight bytes at once,
from which the closed form of FEED follows. -/

namespace Sys2Proof.Machine

/-! ### Lanes -/

/-- A word is its eight lanes (R51). -/
theorem eq_of_laneByte_eq {w w' : Word} (h : ∀ j, j < 8 → laneByte w j = laneByte w' j) : w = w' := by
  apply BitVec.eq_of_getLsbD_eq
  intro i hi
  have hlane : (laneByte w (i / 8)).getLsbD (i % 8) = (laneByte w' (i / 8)).getLsbD (i % 8) := by rw [h _ (by omega)]
  rw [laneByte_getLsbD, laneByte_getLsbD, show 8 * (i / 8) + i % 8 = i by omega] at hlane
  simpa [show i % 8 < 8 by omega] using hlane

theorem laneByte_of_ge (w : Word) {j : Nat} (hj : 8 ≤ j) : laneByte w j = 0#8 := by
  apply BitVec.eq_of_getLsbD_eq
  intro i _
  rw [laneByte_getLsbD, BitVec.getLsbD_of_ge w _ (by omega)]
  simp

theorem laneByte_or (w w' : Word) (j : Nat) : laneByte (w ||| w') j = laneByte w j ||| laneByte w' j :=
  BitVec.extractLsb'_or

/-- A shift by whole bytes moves the lanes up. -/
theorem laneByte_shiftLeft (w : Word) (p : Nat) {j : Nat} (hj : j < 8) :
    laneByte (w <<< (8 * p)) j = if j < p then 0#8 else laneByte w (j - p) := by
  apply BitVec.eq_of_getLsbD_eq
  intro i hi
  rw [laneByte_getLsbD, BitVec.getLsbD_shiftLeft]
  by_cases hp : j < p
  · simp [hp, show 8 * j + i < 8 * p by omega]
  · rw [if_neg hp, laneByte_getLsbD]
    simp [hi, show 8 * j + i < 64 by omega, show ¬ 8 * j + i < 8 * p by omega,
      show 8 * j + i - 8 * p = 8 * (j - p) + i by omega]

theorem laneByte_ushiftRight (w : Word) (k j : Nat) : laneByte (w >>> (8 * k)) j = laneByte w (k + j) := by
  apply BitVec.eq_of_getLsbD_eq
  intro i _
  rw [laneByte_getLsbD, laneByte_getLsbD, BitVec.getLsbD_ushiftRight, Nat.mul_add, Nat.add_assoc]

theorem bufByte_setWidth (w : Word) {j : Nat} (hj : j < 7) : bufByte (w.setWidth 56) j = laneByte w j := by
  apply BitVec.eq_of_getLsbD_eq
  intro i hi
  rw [bufByte_getLsbD, laneByte_getLsbD, BitVec.getLsbD_setWidth]
  simp [show 8 * j + i < 56 by omega]

theorem laneByte_setWidth_byte (x : Byte) {j : Nat} : laneByte (x.setWidth 64) j = if j = 0 then x else 0#8 := by
  apply BitVec.eq_of_getLsbD_eq
  intro i hi
  rw [laneByte_getLsbD, BitVec.getLsbD_setWidth]
  by_cases hj : j = 0
  · simp [hj, hi, show i < 64 by omega]
  · rw [BitVec.getLsbD_of_ge x _ (by omega)]
    simp [hj]

theorem laneByte_setWidth_buf (buf : BitVec 56) (j : Nat) :
    laneByte (buf.setWidth 64) j = if j < 7 then bufByte buf j else 0#8 := by
  apply BitVec.eq_of_getLsbD_eq
  intro i hi
  rw [laneByte_getLsbD, BitVec.getLsbD_setWidth]
  by_cases hj : j < 7
  · simp [hj, bufByte_getLsbD, show 8 * j + i < 64 by omega]
  · rw [BitVec.getLsbD_of_ge buf _ (by omega)]
    simp [hj]

/-! ### Little-endian words -/

theorem leWord_cons (x : Byte) (xs : List Byte) : leWord (x :: xs) = leWord xs <<< (8 * 1) ||| x.setWidth 64 := rfl

/-- Lane `j` of a little-endian word is byte `j`, and 0 where there is none (R51). -/
theorem laneByte_leWord (xs : List Byte) {j : Nat} (hj : j < 8) : laneByte (leWord xs) j = xs.getD j 0#8 := by
  induction xs generalizing j with
  | nil => simp [leWord, laneByte]
  | cons x xs ih =>
    rw [leWord_cons, laneByte_or, laneByte_shiftLeft _ _ hj, laneByte_setWidth_byte]
    cases j with
    | zero => simp
    | succ j => simp [ih (show j < 8 by omega)]

theorem laneByte_leWord_of_lt {xs : List Byte} {j : Nat} (hj : j < 8) (h : j < xs.length) :
    laneByte (leWord xs) j = xs[j] := by
  rw [laneByte_leWord xs hj, List.getD_eq_getElem?_getD, List.getElem?_eq_getElem h, Option.getD_some]

/-- The lanes above the bytes are 0, and so are lanes the word does not have. -/
theorem laneByte_leWord_of_ge {xs : List Byte} {j : Nat} (h : xs.length ≤ j) : laneByte (leWord xs) j = 0#8 := by
  by_cases hj : j < 8
  · rw [laneByte_leWord xs hj, List.getD_eq_getElem?_getD, List.getElem?_eq_none h, Option.getD_none]
  · exact laneByte_of_ge _ (by omega)

/-- The bytes of the word of at most eight bytes are those bytes: R81's beat carries them. -/
theorem beatBytes_leWord {xs : List Byte} (h : xs.length ≤ 8) :
    beatBytes (BitVec.ofNat 4 xs.length) (leWord xs) = xs := by
  have hlen : (BitVec.ofNat 4 xs.length).toNat = xs.length := by
    rw [BitVec.toNat_ofNat, Nat.mod_eq_of_lt (by omega)]
  apply List.ext_getElem
  · rw [beatBytes_length, hlen]
  · intro j hj hj'
    simp only [beatBytes, List.getElem_map, List.getElem_range]
    exact laneByte_leWord_of_lt (by omega) hj'

/-- Keeping the low `n` lanes of a data word is taking the word of its beat. -/
theorem and_mask_eq_leWord {n : BitVec 4} (hn : n ≤ 8#4) (d0 : Word) :
    d0 &&& BitVec.ofNat 64 (2 ^ (8 * n.toNat) - 1) = leWord (beatBytes n d0) := by
  have hn8 : n.toNat ≤ 8 := by bv_omega
  apply eq_of_laneByte_eq
  intro j hj
  apply BitVec.eq_of_getLsbD_eq
  intro i hi
  rw [laneByte_getLsbD, BitVec.getLsbD_and, BitVec.getLsbD_ofNat, Nat.testBit_two_pow_sub_one]
  by_cases hlane : j < n.toNat
  · rw [laneByte_leWord _ hj, List.getD_eq_getElem?_getD, beatBytes_getElem? n d0 hlane, Option.getD_some,
      laneByte_getLsbD]
    simp [show 8 * j + i < 64 by omega, show 8 * j + i < 8 * n.toNat by omega]
  · rw [laneByte_leWord_of_ge (by rw [beatBytes_length]; omega)]
    simp [show ¬ 8 * j + i < 8 * n.toNat by omega]

/-- Bytes that a shift moves out of the word need not be there. -/
theorem leWord_take_shiftLeft (xs : List Byte) {k p : Nat} (h : k + p = 8) :
    leWord (xs.take k) <<< (8 * p) = leWord xs <<< (8 * p) := by
  apply eq_of_laneByte_eq
  intro j hj
  rw [laneByte_shiftLeft _ _ hj, laneByte_shiftLeft _ _ hj]
  by_cases hp : j < p
  · rw [if_pos hp, if_pos hp]
  · rw [if_neg hp, if_neg hp, laneByte_leWord _ (by omega), laneByte_leWord _ (by omega),
      List.getD_eq_getElem?_getD, List.getD_eq_getElem?_getD, List.getElem?_take_of_lt (by omega)]

theorem leWord_ushiftRight {xs : List Byte} (h : xs.length ≤ 8) (k : Nat) :
    leWord xs >>> (8 * k) = leWord (xs.drop k) := by
  apply eq_of_laneByte_eq
  intro j hj
  rw [laneByte_ushiftRight]
  by_cases hkj : k + j < 8
  · rw [laneByte_leWord xs hkj, laneByte_leWord _ hj, List.getD_eq_getElem?_getD, List.getD_eq_getElem?_getD,
      List.getElem?_drop]
  · rw [laneByte_leWord_of_ge (by omega), laneByte_leWord_of_ge (by rw [List.length_drop]; omega)]

/-! ### The final word -/

theorem finalWord_toNat (e : Engine) : (finalWord e).toNat = (e.len.toNat % 256) * 2 ^ 56 + e.buf.toNat := by
  rw [finalWord, byteOverBuf_toNat, BitVec.toNat_setWidth]

theorem laneByte_finalWord (e : Engine) {j : Nat} (hj : j < 8) :
    laneByte (finalWord e) j = if j = 7 then e.len.setWidth 8 else bufByte e.buf j :=
  laneByte_byteOverBuf _ _ hj

/-- Settles O23: the final word is the length byte over the pending lanes (`laneByte_finalWord`). -/
theorem finalWordLayout : Obligations.FinalWordLayout := by
  intro e
  have hlow : ∀ j, j < 7 → laneByte (finalWord e) j = bufByte e.buf j := fun j hj => by
    rw [laneByte_finalWord e (by omega), if_neg (by omega)]
  refine ⟨finalWord_toNat e, hlow, ?top, fun ⟨hzero, _⟩ j hj hj7 => ?above⟩
  case top =>
    rw [laneByte_finalWord e (by decide), if_pos rfl, BitVec.toNat_setWidth]
  case above =>
    rw [hlow j hj7]
    exact hzero j hj (by omega)

/-! ### Absorbing up to eight bytes at once -/

/-- The pending bytes and `xs` above them, as one word. -/
def pendingWord (e : Engine) (xs : List Byte) : Word := e.buf.setWidth 64 ||| leWord xs <<< (8 * e.nbuf.toNat)

/-- A byte below the top lane is the same byte in the buffer and in the word. -/
theorem setWidth_shiftLeft_byte (x : Byte) {p : Nat} (hp : p < 7) :
    (x.setWidth 56 <<< (8 * p)).setWidth 64 = (x.setWidth 64 <<< (8 * p) : Word) := by
  apply BitVec.eq_of_getLsbD_eq
  intro i hi
  simp only [BitVec.getLsbD_setWidth, BitVec.getLsbD_shiftLeft]
  by_cases hx : i - 8 * p < 8
  · by_cases hlow : i < 8 * p
    · simp [hlow]
    · simp [hi, show i < 56 by omega, show i - 8 * p < 56 by omega, show i - 8 * p < 64 by omega]
  · simp [BitVec.getLsbD_of_ge x (i - 8 * p) (by omega)]

/-- Absorbing a byte below seven pending ones moves it from the bytes to come to the pending ones. -/
theorem pendingWord_cons {e : Engine} (hzero : ZeroAbove e) (hlt : e.nbuf.toNat < 7) (c : Nat) (x : Byte) (xs : List Byte) :
    pendingWord e (x :: xs) = pendingWord (absorbByte c e x) xs := by
  have hnbuf : (absorbByte c e x).nbuf.toNat = e.nbuf.toNat + 1 := by rw [absorbByte_nbuf, Nat.mod_eq_of_lt (by omega)]
  have hbuf : (absorbByte c e x).buf = e.buf ||| (x.setWidth 56 <<< (8 * e.nbuf.toNat)) := by
    rw [absorbByte_of_lt hlt]
    exact writeBufByte_eq_or (hzero e.nbuf.toNat (Nat.le_refl _) (by omega)) x
  rw [pendingWord, pendingWord, hnbuf, hbuf, BitVec.setWidth_or, setWidth_shiftLeft_byte x hlt, leWord_cons,
    BitVec.shiftLeft_or_distrib, ← BitVec.shiftLeft_add, BitVec.or_assoc, BitVec.or_comm (x.setWidth 64 <<< _),
    show 8 * 1 + 8 * e.nbuf.toNat = 8 * (e.nbuf.toNat + 1) by omega]

/-- Up to seven bytes in all stay pending. -/
theorem absorbBytes_of_lt {e : Engine} (hzero : ZeroAbove e) {xs : List Byte} (h : e.nbuf.toNat + xs.length < 8) (c : Nat) :
    absorbBytes c xs e =
      { e with buf := (pendingWord e xs).setWidth 56, nbuf := BitVec.ofNat 3 (e.nbuf.toNat + xs.length) } := by
  induction xs generalizing e with
  | nil =>
    have hbuf : (pendingWord e []).setWidth 56 = e.buf := by simp [pendingWord, leWord]
    rw [hbuf]
    simp
  | cons x xs ih =>
    rw [List.length_cons] at h
    have hlt : e.nbuf.toNat < 7 := by omega
    have hnbuf : (absorbByte c e x).nbuf.toNat = e.nbuf.toNat + 1 := by
      rw [absorbByte_nbuf, Nat.mod_eq_of_lt (by omega)]
    rw [absorbBytes_cons, ih (absorbByte_zeroAbove hzero c x) (by omega), ← pendingWord_cons hzero hlt, hnbuf,
      absorbByte_of_lt hlt, List.length_cons, Nat.add_right_comm, Nat.add_assoc]

theorem pendingWord_of_full {e : Engine} (h : e.nbuf.toNat = 7) (x : Byte) : pendingWord e [x] = x ++ e.buf := by
  apply eq_of_laneByte_eq
  intro j hj
  rw [laneByte_byteOverBuf x e.buf hj, pendingWord, h, laneByte_or, laneByte_shiftLeft _ _ hj, laneByte_setWidth_buf]
  by_cases htop : j = 7
  · subst htop
    simp [laneByte_leWord]
  · simp [htop, show j < 7 by omega]

/-- Eight bytes in all are compressed. -/
theorem absorbBytes_of_eq {e : Engine} (hzero : ZeroAbove e) {xs : List Byte} (h : e.nbuf.toNat + xs.length = 8) (c : Nat) :
    absorbBytes c xs e = { e with v := compress c e.v (pendingWord e xs), buf := 0, nbuf := 0 } := by
  induction xs generalizing e with
  | nil =>
    rw [List.length_nil] at h
    omega
  | cons x xs ih =>
    rw [List.length_cons] at h
    by_cases hlt : e.nbuf.toNat < 7
    · have hcount : (absorbByte c e x).nbuf.toNat + xs.length = 8 := by
        rw [absorbByte_nbuf, Nat.mod_eq_of_lt (by omega)]
        omega
      rw [absorbBytes_cons, ih (absorbByte_zeroAbove hzero c x) hcount, ← pendingWord_cons hzero hlt, absorbByte_of_lt hlt]
    · have hfull : e.nbuf.toNat = 7 := by omega
      obtain rfl : xs = [] := List.eq_nil_of_length_eq_zero (by omega)
      rw [pendingWord_of_full hfull, absorbBytes_cons, absorbBytes_nil, absorbByte_of_full hfull]

/-! ### The closed form of FEED -/

/-- From eight bytes on, the first of them are compressed and the others pend. -/
theorem absorbBytes_of_ge {e : Engine} (hzero : ZeroAbove e) {xs : List Byte} (hxs : xs.length ≤ 8)
    (h : 8 ≤ e.nbuf.toNat + xs.length) (c : Nat) :
    absorbBytes c xs e =
      { e with v := compress c e.v (pendingWord e xs),
               buf := (leWord (xs.drop (8 - e.nbuf.toNat))).setWidth 56,
               nbuf := BitVec.ofNat 3 (e.nbuf.toNat + xs.length - 8) } := by
  have htake : (xs.take (8 - e.nbuf.toNat)).length = 8 - e.nbuf.toNat := List.length_take_of_le (by omega)
  have hword : pendingWord e (xs.take (8 - e.nbuf.toNat)) = pendingWord e xs := by
    rw [pendingWord, pendingWord, leWord_take_shiftLeft xs (by omega)]
  have hdrop : (xs.drop (8 - e.nbuf.toNat)).length = e.nbuf.toNat + xs.length - 8 := by
    rw [List.length_drop]
    omega
  rw [← List.take_append_drop (8 - e.nbuf.toNat) xs, absorbBytes_append, absorbBytes_of_eq hzero (by omega), hword,
    absorbBytes_of_lt (zeroAbove_of_buf_zero rfl) (by simp; omega), List.take_append_drop]
  simp [pendingWord, hdrop]

/-- The 128-bit word `T` of the closed form (41_hasher_commands.md section 3). -/
def beatWindow (e : Engine) (x : Word) : BitVec 128 := e.buf.setWidth 128 ||| (x.setWidth 128 <<< (8 * e.nbuf.toNat))

/-- Bit by bit the window is the pending bytes and, from lane `NBUF` on, the data word. -/
theorem beatWindow_getLsbD (e : Engine) (x : Word) {i : Nat} (hi : i < 128) :
    (beatWindow e x).getLsbD i =
      (e.buf.getLsbD i || (!decide (i < 8 * e.nbuf.toNat) && x.getLsbD (i - 8 * e.nbuf.toNat))) := by
  rw [beatWindow, BitVec.getLsbD_or, BitVec.getLsbD_shiftLeft, BitVec.getLsbD_setWidth, BitVec.getLsbD_setWidth]
  simp [hi, show i - 8 * e.nbuf.toNat < 128 by omega]

theorem beatWindow_low (e : Engine) (xs : List Byte) :
    (beatWindow e (leWord xs)).extractLsb' 0 64 = pendingWord e xs := by
  apply BitVec.eq_of_getLsbD_eq
  intro i hi
  rw [BitVec.getLsbD_extractLsb', Nat.zero_add, beatWindow_getLsbD _ _ (by omega), pendingWord, BitVec.getLsbD_or,
    BitVec.getLsbD_shiftLeft, BitVec.getLsbD_setWidth]
  simp [hi]

theorem beatWindow_buf (e : Engine) (xs : List Byte) :
    (beatWindow e (leWord xs)).extractLsb' 0 56 = (pendingWord e xs).setWidth 56 := by
  rw [← beatWindow_low, BitVec.setWidth_eq_extractLsb' (by decide), extractLsb'_extractLsb' _ (by decide)]

theorem beatWindow_high (e : Engine) {xs : List Byte} (hxs : xs.length ≤ 8) :
    (beatWindow e (leWord xs) >>> 64).setWidth 56 = (leWord (xs.drop (8 - e.nbuf.toNat))).setWidth 56 := by
  apply BitVec.eq_of_getLsbD_eq
  intro i hi
  rw [← leWord_ushiftRight hxs, BitVec.getLsbD_setWidth, BitVec.getLsbD_setWidth, BitVec.getLsbD_ushiftRight,
    BitVec.getLsbD_ushiftRight, beatWindow_getLsbD _ _ (by omega), BitVec.getLsbD_of_ge e.buf _ (by omega),
    show 64 + i - 8 * e.nbuf.toNat = 8 * (8 - e.nbuf.toNat) + i by omega]
  simp [show ¬ 64 + i < 8 * e.nbuf.toNat by omega]

/-- Settles O22: the masked data word is the word of the beat's bytes (`and_mask_eq_leWord`), up to seven bytes in all stay pending
(`absorbBytes_of_lt`), and of eight or more the first eight are compressed (`absorbBytes_of_ge`). -/
theorem feedClosedForm : Obligations.FeedClosedForm := by
  intro n d0 s hn hphase hzero p x T
  have hT : T = beatWindow s.eng (leWord (beatBytes n d0)) := by rw [← and_mask_eq_leWord hn]; rfl
  have hlen := beatBytes_length n d0
  rw [hT, exec_feed_of_absorb hn hphase, feedEngine]
  constructor
  · intro hlt
    rw [absorbBytes_of_lt hzero (by rwa [hlen]), hlen, beatWindow_buf]
    rfl
  · intro hge
    rw [absorbBytes_of_ge hzero (by rw [hlen]; bv_omega) (by rwa [hlen]), hlen, beatWindow_low,
      beatWindow_high _ (by rw [hlen]; bv_omega)]
    rfl

end Sys2Proof.Machine
end

section
/-! PROOFS. The byte stream: FEED words are the bytes they carry, cut wherever (R151), and errors in between do not touch it
(R183). -/

namespace Sys2Proof.Machine

/-! ### Absorbing a stream -/

/-- Absorbing writes nothing but its triple. -/
theorem absorbBytes_eq_withAbsorbed (c : Nat) (xs : List Byte) (e : Engine) :
    absorbBytes c xs e = e.withAbsorbed (absorbBytes c xs e) :=
  absorbBytes_withAbsorbed c xs e e

/-- The registers after the bytes of a stream, in whatever beats: absorbed in order, and `LEN` grown by their number (R134). -/
def feedStream (build : Variant) (xs : List Byte) (e : Engine) : Engine :=
  { absorbBytes (roundsC build) xs e with len := e.len + BitVec.ofNat 64 xs.length }

theorem feedEngine_eq_feedStream (build : Variant) (n : BitVec 4) (d0 : Word) (e : Engine) :
    feedEngine build n d0 e = feedStream build (beatBytes n d0) e := by
  rw [feedEngine, feedStream, beatBytes_length, BitVec.ofNat_toNat]
  rfl

theorem feedStream_nil (build : Variant) (e : Engine) : feedStream build [] e = e := by
  change { e with len := e.len + 0#64 } = e
  rw [BitVec.add_zero]

theorem feedStream_phase (build : Variant) (xs : List Byte) (e : Engine) : (feedStream build xs e).phase = e.phase := by
  rw [feedStream, absorbBytes_eq_withAbsorbed]
  rfl

theorem feedStream_err (build : Variant) (xs : List Byte) (e : Engine) : (feedStream build xs e).err = e.err := by
  rw [feedStream, absorbBytes_eq_withAbsorbed]
  rfl

theorem feedStream_withErr (build : Variant) (xs : List Byte) (b : Bool) (e : Engine) :
    feedStream build xs (e.withErr b) = (feedStream build xs e).withErr b := by
  rw [feedStream, absorbBytes_withErr]
  rfl

/-- A stream may be cut anywhere: absorbing does not read `LEN`, and the lengths add. -/
theorem feedStream_append (build : Variant) (xs ys : List Byte) (e : Engine) :
    feedStream build (xs ++ ys) e = feedStream build ys (feedStream build xs e) := by
  have hys : absorbBytes (roundsC build) ys (feedStream build xs e) =
      (feedStream build xs e).withAbsorbed (absorbBytes (roundsC build) (xs ++ ys) e) := by
    rw [absorbBytes_append]
    exact absorbBytes_withAbsorbed _ ys (feedStream build xs e) (absorbBytes (roundsC build) xs e)
  have hlen : e.len + BitVec.ofNat 64 (xs ++ ys).length =
      (feedStream build xs e).len + BitVec.ofNat 64 ys.length := by
    rw [List.length_append, BitVec.ofNat_add, ← BitVec.add_assoc]
    rfl
  calc feedStream build (xs ++ ys) e
      _ = { e.withAbsorbed (absorbBytes (roundsC build) (xs ++ ys) e) with
            len := (feedStream build xs e).len + BitVec.ofNat 64 ys.length } := by
        rw [← hlen, ← absorbBytes_eq_withAbsorbed]
        rfl
      _ = { (feedStream build xs e).withAbsorbed (absorbBytes (roundsC build) (xs ++ ys) e) with
            len := (feedStream build xs e).len + BitVec.ofNat 64 ys.length } := by
        rw [feedStream, absorbBytes_eq_withAbsorbed _ xs]
        rfl
      _ = feedStream build ys (feedStream build xs e) := by
        rw [← hys]
        rfl

/-! ### The transactions of a stream -/

theorem fedBytes_feed {cw : CommandWord} {n : BitVec 4} {d0 : Word} (h : decode cw = .command (.feed n d0)) :
    fedBytes cw = beatBytes n d0 := by
  simp [fedBytes, h]

theorem transact_of_accepts {cw : CommandWord} {i : Instr} {e : Engine} (hcw : decode cw = .command i)
    (haccepts : accepts i e.phase = true) (build : Variant) :
    transact build e cw = (effect i build e, some ⟨.ok, answer i build e⟩) := by
  have hrun : ∀ s : State, s.eng = e → s.build = build →
      runCommand cw s = respond (effect i build e) (answer i build e) s := by
    rintro s rfl rfl
    rw [runCommand_legal hcw, exec_eq_effect (decode_wellFormed hcw), ifAccepted_of_accepts haccepts]
  rw [transact_of_runCommand (hrun _ rfl rfl)]

/-- A FEED word in `ABSORB` absorbs its bytes and answers OK. -/
theorem transact_feed {cw : CommandWord} {n : BitVec 4} {d0 : Word} {e : Engine} (hcw : decode cw = .command (.feed n d0))
    (hphase : e.phase = .absorb) (build : Variant) :
    transact build e cw = (feedStream build (fedBytes cw) e, some ⟨.ok, 0⟩) := by
  rw [transact_of_accepts hcw ((accepts_feed n d0 e.phase).mpr hphase), fedBytes_feed hcw, ← feedEngine_eq_feedStream]
  rfl

/-- A legal FEED word. -/
def IsFeedWord (cw : CommandWord) : Prop := ∃ n d0, decode cw = .command (.feed n d0)

/-- FEED words absorb the bytes they carry, one after the other. -/
theorem transactAll_feeds {cws : List CommandWord} (hcws : ∀ cw ∈ cws, IsFeedWord cw) {e : Engine}
    (hphase : e.phase = .absorb) (build : Variant) :
    transactAll build e cws = feedStream build (cws.flatMap fedBytes) e := by
  induction cws generalizing e with
  | nil => exact (feedStream_nil build e).symm
  | cons cw cws ih =>
    obtain ⟨⟨n, d0, hcw⟩, hrest⟩ := List.forall_mem_cons.mp hcws
    rw [List.flatMap_cons, feedStream_append, ← ih hrest ((feedStream_phase build _ e).trans hphase)]
    change transactAll build (transact build e cw).1 cws = _
    rw [transact_feed hcw hphase]

/-! ### Chunk-boundary independence -/

/-- The command word of a beat. -/
def beatWord (b : BitVec 4 × Word) : CommandWord := encode (.feed b.1 b.2)

theorem decode_beatWord {b : BitVec 4 × Word} (hb : b.1 ≤ 8#4) : decode (beatWord b) = .command (.feed b.1 b.2) :=
  decode_pack_feed hb 0#64 b.2

theorem isFeedWord_of_mem_beats {beats : List (BitVec 4 × Word)} (hbeats : ∀ b ∈ beats, b.1 ≤ 8#4) :
    ∀ cw ∈ beats.map beatWord, IsFeedWord cw := by
  intro cw hcw
  obtain ⟨b, hb, rfl⟩ := List.mem_map.mp hcw
  exact ⟨b.1, b.2, decode_beatWord (hbeats b hb)⟩

theorem fedBytes_beats {beats : List (BitVec 4 × Word)} (hbeats : ∀ b ∈ beats, b.1 ≤ 8#4) :
    (beats.map beatWord).flatMap fedBytes = beats.flatMap (fun b => beatBytes b.1 b.2) := by
  rw [List.flatMap_map]
  rw [List.flatMap_def, List.flatMap_def]
  exact congrArg List.flatten (List.map_congr_left fun b hb => fedBytes_feed (decode_beatWord (hbeats b hb)))

/-- A run of beats in `ABSORB` absorbs the bytes they carry. -/
theorem runSteps_beats {beats : List (BitVec 4 × Word)} (hbeats : ∀ b ∈ beats, b.1 ≤ 8#4) {s : State}
    (hphase : s.eng.phase = .absorb) :
    ∃ t, runSteps beats.length (s.presentAll (beats.map beatWord)) = .next t ∧
      t.eng = feedStream s.build (beats.flatMap (fun b => beatBytes b.1 b.2)) s.eng := by
  refine ⟨s.transactedAll (beats.map beatWord), ?_, ?_⟩
  · rw [← List.length_map (f := beatWord)]
    exact runSteps_presentAll (beats.map beatWord) s
  · rw [transactedAll_eng, transactAll_feeds (isFeedWord_of_mem_beats hbeats) hphase, fedBytes_beats hbeats]

/-- Settles O40: both runs absorb the same stream (`runSteps_beats`), wherever its beats are cut. -/
theorem chunkBoundaryIndependence : Obligations.ChunkBoundaryIndependence := by
  intro s xs ys hphase hxs hys hbytes
  obtain ⟨t, ht, hteng⟩ := runSteps_beats hxs hphase
  obtain ⟨u, hu, hueng⟩ := runSteps_beats hys hphase
  refine ⟨t, u, ht, hu, hteng.trans (hbytes ▸ hueng.symm), ?_⟩
  rw [hteng, feedStream_phase, hphase]

/-! ### Errors in between -/

theorem transact_raise {cw : CommandWord} {error : CommandError} {build : Variant} {e : Engine}
    (h : ∀ s, s.eng = e → runCommand cw s = raise error s) : (transact build e cw).1 = e.setErr := by
  rw [transact_of_runCommand (h _ rfl)]

/-- In `ABSORB` a word that is no legal INIT or FINAL absorbs its bytes, if it has any, and touches nothing else but `ERR`. -/
theorem transact_withErr_of_not_endsStream {cw : CommandWord} (hcw : endsStream cw = false) {e : Engine}
    (hphase : e.phase = .absorb) (build : Variant) :
    (transact build e cw).1.withErr false = (feedStream build (fedBytes cw) e).withErr false := by
  cases hdecode : decode cw with
  | illegal why =>
    have hbytes : fedBytes cw = [] := by simp [fedBytes, hdecode]
    rw [hbytes, feedStream_nil, transact_raise fun s _ => runCommand_illegal hdecode s]
    rfl
  | command i =>
    cases i with
    | init k0 k1 => simp [endsStream, hdecode] at hcw
    | final => simp [endsStream, hdecode] at hcw
    | feed n d0 => rw [transact_feed hdecode hphase]
    | status =>
      have hbytes : fedBytes cw = [] := by simp [fedBytes, hdecode]
      rw [hbytes, feedStream_nil, transact_of_accepts hdecode rfl]
      rfl
    | rddigest =>
      have hbytes : fedBytes cw = [] := by simp [fedBytes, hdecode]
      have hraise : ∀ s : State, s.eng = e → runCommand cw s = raise .invalidState s := by
        rintro s rfl
        rw [runCommand_legal hdecode]
        exact exec_rddigest_of_ne_done (by simp [hphase])
      rw [hbytes, feedStream_nil, transact_raise hraise]
      rfl

theorem transactAll_withErr_of_not_endsStream {cws : List CommandWord} (hcws : ∀ cw ∈ cws, endsStream cw = false)
    {e : Engine} (hphase : e.phase = .absorb) (build : Variant) :
    (transactAll build e cws).withErr false = (feedStream build (cws.flatMap fedBytes) e).withErr false := by
  induction cws generalizing e with
  | nil => exact congrArg (Engine.withErr false) (feedStream_nil build e).symm
  | cons cw cws ih =>
    obtain ⟨hcw, hrest⟩ := List.forall_mem_cons.mp hcws
    have hhead := transact_withErr_of_not_endsStream hcw hphase build
    have hphase' : (transact build e cw).1.phase = .absorb :=
      (congrArg Engine.phase hhead).trans ((feedStream_phase build _ e).trans hphase)
    calc (transactAll build (transact build e cw).1 cws).withErr false
        _ = (feedStream build (cws.flatMap fedBytes) (transact build e cw).1).withErr false := ih hrest hphase'
        _ = (feedStream build (cws.flatMap fedBytes) (feedStream build (fedBytes cw) e)).withErr false := by
          rw [← feedStream_withErr, hhead, feedStream_withErr]
        _ = (feedStream build ((cw :: cws).flatMap fedBytes) e).withErr false := by
          rw [List.flatMap_cons, feedStream_append]

/-- Settles O41: the run is the fold of the transactions (`runSteps_presentAll`), each of which absorbs the bytes of its word and
nothing else but for `ERR`. -/
theorem errorsDoNotDamageTheStream : Obligations.ErrorsDoNotDamageTheStream := by
  intro s cws hphase hcws
  refine ⟨_, runSteps_presentAll cws s, ?_⟩
  rw [transactedAll_eng]
  exact transactAll_withErr_of_not_endsStream hcws hphase s.build

end Sys2Proof.Machine
end

section
/-! PROOFS. SIPHASH (R108): the hasher absorbs a stream as SIPHASH's loop does (R152), its final word is SIPHASH's, and the length is
part of it (R155). -/

namespace Sys2Proof.Machine

/-! ### The final word of a stream -/

theorem tailBytes_length (S : List Byte) : (tailBytes S).length = S.length % 8 := by
  rw [tailBytes, List.length_drop]
  omega

/-- The final word of a stream is its length byte over its last bytes, as FINAL packs them (R108, R136). -/
theorem streamFinalWord_eq_append (S : List Byte) :
    streamFinalWord S = BitVec.ofNat 8 S.length ++ (leWord (tailBytes S)).setWidth 56 := by
  have htail := tailBytes_length S
  apply eq_of_laneByte_eq
  intro j hj
  rw [laneByte_byteOverBuf _ _ hj, streamFinalWord, laneByte_or, laneByte_shiftLeft _ 7 hj]
  by_cases htop : j = 7
  · have hlow : laneByte (BitVec.ofNat 64 (S.length % 256)) 0 = BitVec.ofNat 8 S.length := by
      apply BitVec.eq_of_toNat_eq
      rw [laneByte, BitVec.extractLsb'_toNat, BitVec.toNat_ofNat, BitVec.toNat_ofNat]
      simp
    subst htop
    rw [if_neg (by decide), if_pos rfl, hlow, laneByte_leWord_of_ge (by omega), BitVec.or_zero]
  · rw [if_pos (by omega), if_neg htop, bufByte_setWidth _ (by omega), BitVec.zero_or]

theorem laneByte_streamFinalWord_top (S : List Byte) : laneByte (streamFinalWord S) 7 = BitVec.ofNat 8 S.length := by
  rw [streamFinalWord_eq_append, laneByte_byteOverBuf _ _ (by decide), if_pos rfl]

/-- Settles O45: the top byte of the final word is the length modulo 256 (`laneByte_streamFinalWord_top`); a multiple of 256 zero
bytes is a multiple of 32 whole words. -/
theorem appendedZeroBytesAreSeparated : Obligations.AppendedZeroBytesAreSeparated := by
  intro S k hk
  have hlen : (S ++ List.replicate k 0#8).length = S.length + k := by simp
  refine ⟨fun hk256 heq => ?_, fun hk256 => by rw [hlen]; omega⟩
  have htop : BitVec.ofNat 8 S.length = BitVec.ofNat 8 (S.length + k) := by
    rw [← hlen, ← laneByte_streamFinalWord_top, ← laneByte_streamFinalWord_top, heq]
  have hmod : S.length % 256 = (S.length + k) % 256 := by simpa using congrArg BitVec.toNat htop
  omega

/-! ### The stream as whole words and a tail -/

theorem take_succ_group (S : List Byte) (q : Nat) :
    S.take (8 * (q + 1)) = S.take (8 * q) ++ (S.drop (8 * q)).take 8 := by
  rw [Nat.mul_succ, List.take_add]

theorem group_length {S : List Byte} {q : Nat} (h : q < S.length / 8) : ((S.drop (8 * q)).take 8).length = 8 := by
  rw [List.length_take, List.length_drop]
  omega

/-- From an empty buffer, eight bytes are compressed as one little-endian word. -/
theorem absorbBytes_group {e : Engine} (hbuf : e.buf = 0) (hnbuf : e.nbuf = 0) {xs : List Byte} (hxs : xs.length = 8) (c : Nat) :
    absorbBytes c xs e = { e with v := compress c e.v (leWord xs) } := by
  have hword : pendingWord e xs = leWord xs := by simp [pendingWord, hbuf, hnbuf]
  rw [absorbBytes_of_eq (zeroAbove_of_buf_zero hbuf) (by rw [hnbuf, hxs]; rfl), hword, ← hbuf, ← hnbuf]

/-- The state words after whole groups of eight bytes are those of SIPHASH's loop (R108). -/
theorem absorbBytes_groups {e : Engine} (hbuf : e.buf = 0) (hnbuf : e.nbuf = 0) (c : Nat) (S : List Byte) {q : Nat}
    (hq : q ≤ S.length / 8) :
    absorbBytes c (S.take (8 * q)) e =
      { e with v := (List.range q).foldl (fun v i => compress c v (streamWord S i)) e.v } := by
  induction q with
  | zero => rfl
  | succ q ih =>
    rw [take_succ_group, absorbBytes_append, ih (by omega), List.range_succ, List.foldl_append]
    exact absorbBytes_group (by exact hbuf) (by exact hnbuf) (group_length hq) c

/-- From an empty buffer a stream is its whole groups and then its tail, which stays pending. -/
theorem absorbBytes_of_empty {e : Engine} (hbuf : e.buf = 0) (hnbuf : e.nbuf = 0) (c : Nat) (S : List Byte) :
    absorbBytes c S e =
      { e with v := (List.range (S.length / 8)).foldl (fun v i => compress c v (streamWord S i)) e.v,
               buf := (leWord (tailBytes S)).setWidth 56, nbuf := BitVec.ofNat 3 (S.length % 8) } := by
  have htail := tailBytes_length S
  have hlt : e.nbuf.toNat + (tailBytes S).length < 8 := by
    rw [hnbuf, htail]
    simp; omega
  calc absorbBytes c S e
      _ = absorbBytes c (tailBytes S) (absorbBytes c (S.take (8 * (S.length / 8))) e) := by
        rw [← absorbBytes_append, tailBytes, List.take_append_drop]
      _ = _ := by
        rw [absorbBytes_groups hbuf hnbuf c S (Nat.le_refl _),
          absorbBytes_of_lt (zeroAbove_of_buf_zero (by exact hbuf)) (by exact hlt)]
        simp [pendingWord, hbuf, hnbuf, htail]

/-- What the hasher holds after INIT and the bytes of `S`: SIPHASH's loop in `V`, the tail pending, the length (R152). -/
theorem feedStream_initEngine (build : Variant) (k0 k1 : Word) (S : List Byte) (e : Engine) :
    feedStream build S (initEngine k0 k1 e) =
      { initEngine k0 k1 e with
        v := absorbWords build k0 k1 S, buf := (leWord (tailBytes S)).setWidth 56,
        nbuf := BitVec.ofNat 3 (S.length % 8), len := BitVec.ofNat 64 S.length } := by
  have hlen : (0 : Word) + BitVec.ofNat 64 S.length = BitVec.ofNat 64 S.length := BitVec.zero_add _
  rw [feedStream, initEngine_len, hlen, absorbBytes_of_empty rfl rfl]
  rfl

/-- FINAL on those registers computes SIPHASH (R152). -/
theorem finalResult_feedStream_initEngine (build : Variant) (k0 k1 : Word) (S : List Byte) (e : Engine) :
    (finalResult build (feedStream build S (initEngine k0 k1 e))).2 = sipHash build k0 k1 S := by
  have hword : finalWord (feedStream build S (initEngine k0 k1 e)) = streamFinalWord S := by
    rw [feedStream_initEngine, streamFinalWord_eq_append, finalWord, BitVec.setWidth_ofNat_of_le (by decide)]
  rw [finalResult, hword, feedStream_initEngine]
  rfl

end Sys2Proof.Machine
end

section
/-! PROOFS. Whole hashes: INIT, FEED words and FINAL run to SIPHASH of the bytes (R152, R154), and FEEDS and HASH of R82 expand to
such runs. -/

namespace Sys2Proof.Machine

/-! ### INIT and FEED words -/

theorem decode_encode_init (k0 k1 : Word) : decode (encode (.init k0 k1)) = .command (.init k0 k1) :=
  decode_pack_init k0 k1

theorem decode_encode_final : decode (encode .final) = .command .final := by decide

theorem transact_init (build : Variant) (k0 k1 : Word) (e : Engine) :
    transact build e (encode (.init k0 k1)) = (initEngine k0 k1 e, some ⟨.ok, 0⟩) :=
  transact_of_accepts (decode_encode_init k0 k1) rfl build

theorem transact_final {e : Engine} (hphase : e.phase = .absorb) (build : Variant) :
    transact build e (encode .final) = (finalEngine build e, some ⟨.ok, (finalResult build e).2⟩) :=
  transact_of_accepts decode_encode_final ((accepts_final e.phase).mpr hphase) build

section Feeds
variable {feeds : List CommandWord} (hfeeds : ∀ cw ∈ feeds, IsFeedWord cw) (s : State) (k0 k1 : Word)
include hfeeds

theorem transactAll_init_feeds (build : Variant) (e : Engine) :
    transactAll build e (encode (.init k0 k1) :: feeds) =
      feedStream build (feeds.flatMap fedBytes) (initEngine k0 k1 e) := by
  change transactAll build (transact build e (encode (.init k0 k1))).1 feeds = _
  rw [transact_init, transactAll_feeds hfeeds rfl]

/-- INIT, FEED words and FINAL leave `DONE` with SIPHASH of the bytes, from any state (R152, R154). -/
theorem transactedAll_hash :
    s.transactedAll (encode (.init k0 k1) :: (feeds ++ [encode .final])) =
      { s with eng := finalEngine s.build (feedStream s.build (feeds.flatMap fedBytes) (initEngine k0 k1 s.eng)),
               rsp := some ⟨.ok, sipHash s.build k0 k1 (feeds.flatMap fedBytes)⟩ } := by
  have hlast : s.transactedAll (encode (.init k0 k1) :: (feeds ++ [encode .final])) =
      (s.transactedAll (encode (.init k0 k1) :: feeds)).transacted (encode .final) := by
    rw [State.transactedAll, ← List.cons_append, List.foldl_append]
    rfl
  have hphase : (feedStream s.build (feeds.flatMap fedBytes) (initEngine k0 k1 s.eng)).phase = .absorb :=
    feedStream_phase _ _ _
  rw [hlast, State.transacted, transactedAll_eng, transactedAll_build, transactedAll_inputs, transactAll_init_feeds hfeeds,
    transact_final hphase, finalResult_feedStream_initEngine]

end Feeds

/-! ### Every answer is OK -/

/-- Every command of the list answers OK, from the engine the ones before it leave. -/
def AnswersOk (build : Variant) (e : Engine) (cws : List CommandWord) : Prop :=
  ∀ k cw, cws[k]? = some cw → ∃ val, (transact build (transactAll build e (cws.take k)) cw).2 = some ⟨.ok, val⟩

theorem answersOk_nil (build : Variant) (e : Engine) : AnswersOk build e [] := by
  intro k cw h
  cases h

theorem answersOk_cons {build : Variant} {e e' : Engine} {cw : CommandWord} {cws : List CommandWord} {val : Word}
    (hhead : transact build e cw = (e', some ⟨.ok, val⟩)) (htail : AnswersOk build e' cws) : AnswersOk build e (cw :: cws) := by
  obtain rfl : (transact build e cw).1 = e' := congrArg Prod.fst hhead
  intro k cw' h
  cases k with
  | zero =>
    obtain rfl := Option.some.inj h
    exact ⟨val, congrArg Prod.snd hhead⟩
  | succ k => exact htail k cw' h

theorem answersOk_feeds_final {feeds : List CommandWord} (hfeeds : ∀ cw ∈ feeds, IsFeedWord cw) (build : Variant) {e : Engine}
    (hphase : e.phase = .absorb) : AnswersOk build e (feeds ++ [encode .final]) := by
  induction feeds generalizing e with
  | nil => exact answersOk_cons (transact_final hphase build) (answersOk_nil build _)
  | cons cw feeds ih =>
    obtain ⟨⟨n, d0, hcw⟩, hrest⟩ := List.forall_mem_cons.mp hfeeds
    exact answersOk_cons (transact_feed hcw hphase build) (ih hrest ((feedStream_phase build _ e).trans hphase))

theorem answersOk_hash {feeds : List CommandWord} (hfeeds : ∀ cw ∈ feeds, IsFeedWord cw) (build : Variant) (e : Engine)
    (k0 k1 : Word) : AnswersOk build e (encode (.init k0 k1) :: (feeds ++ [encode .final])) :=
  answersOk_cons (transact_init build k0 k1 e) (answersOk_feeds_final hfeeds build rfl)

/-- Where every command answers OK, every step of the run responds and reports no misuse. -/
theorem runSteps_noMisuse {s : State} {cws : List CommandWord} (hok : AnswersOk s.build s.eng cws) {k : Nat}
    (hk : k < cws.length) : ∃ u, runSteps (k + 1) (s.presentAll cws) = .next u ∧ u.rsp ≠ none ∧ NoMisuse u := by
  have hcw : cws[k]? = some cws[k] := List.getElem?_eq_getElem hk
  obtain ⟨val, hval⟩ := hok k cws[k] hcw
  refine ⟨_, runSteps_presentAll_of_getElem? hcw s, ?_⟩
  simp only [NoMisuse, presentAll_rsp, State.transacted, transactedAll_build, transactedAll_eng, hval]
  exact ⟨Option.some_ne_none _, fun r hr => (Option.some.inj hr) ▸ rfl⟩

/-! ### Beats given by the host -/

/-- Settles O42: the run leaves what SIPHASH's loop leaves (`feedStream_initEngine`), and FINAL then answers and stores SIPHASH
(`finalResult_feedStream_initEngine`). -/
theorem hasherComputesSipHash : Obligations.HasherComputesSipHash := by
  intro s k0 k1 beats hbeats S cws
  have heng : (s.transactedAll cws).eng = feedStream s.build S (initEngine k0 k1 s.eng) := by
    rw [transactedAll_eng]
    exact (transactAll_init_feeds (isFeedWord_of_mem_beats hbeats) k0 k1 s.build s.eng).trans
      (by rw [fedBytes_beats hbeats])
  have hphase : (s.transactedAll cws).eng.phase = .absorb := by
    rw [heng, feedStream_phase]
    rfl
  have hdigest : (finalResult (s.transactedAll cws).build (s.transactedAll cws).eng).2 = sipHash s.build k0 k1 S := by
    rw [heng, transactedAll_build, finalResult_feedStream_initEngine]
  refine ⟨_, _, runSteps_presentAll cws s, ?v, ?buf, ?nbuf, ?len, hphase, exec_final_of_absorb hphase, ?rsp, hdigest⟩
  case rsp => exact congrArg (fun d => some (Rsp.mk .ok d)) hdigest
  all_goals rw [heng, feedStream_initEngine]
  case buf =>
    intro j hj
    have hj' : j < (tailBytes S).length := by rwa [tailBytes_length]
    rw [bufByte_setWidth _ (by omega), laneByte_leWord_of_lt (by omega) hj', List.getElem?_eq_getElem hj']
  case nbuf =>
    rw [BitVec.toNat_ofNat, Nat.mod_eq_of_lt (by omega)]
  case len => exact BitVec.toNat_ofNat _ _

/-- Settles O44: from any state the run answers SIPHASH of the key and the bytes (`transactedAll_hash`), wherever the beats are
cut. -/
theorem equalKeyAndBytesGiveEqualDigest : Obligations.EqualKeyAndBytesGiveEqualDigest := by
  intro s s' k0 k1 xs ys hbuild hxs hys hbytes run
  have hrsp : ∀ (r : State) (beats : List (BitVec 4 × Word)), (∀ b ∈ beats, b.1 ≤ 8#4) →
      (r.transactedAll (run beats)).rsp =
        some ⟨.ok, sipHash r.build k0 k1 (beats.flatMap (fun b => beatBytes b.1 b.2))⟩ := by
    intro r beats hbeats
    rw [← fedBytes_beats hbeats]
    exact congrArg State.rsp (transactedAll_hash (isFeedWord_of_mem_beats hbeats) r k0 k1)
  refine ⟨_, _, runSteps_presentAll (run xs) s, runSteps_presentAll (run ys) s', ?_, _, hrsp s xs hxs⟩
  rw [hrsp s xs hxs, hrsp s' ys hys, hbuild, hbytes]

/-! ### The pseudo-commands -/

theorem wellFormed_beatOf {xs : List Byte} (h : xs.length ≤ 8) : (beatOf xs).wellFormed = true := by
  apply decide_eq_true
  rw [BitVec.le_def, BitVec.toNat_ofNat, Nat.mod_eq_of_lt (by omega)]
  exact h

/-- A beat of bytes is a FEED word that carries them (R81). -/
theorem fedBytes_beatOf {xs : List Byte} (h : xs.length ≤ 8) : fedBytes (encode (beatOf xs)) = xs :=
  (fedBytes_feed (decodeOfEncodeIsTheCommand _ (wellFormed_beatOf h))).trans (beatBytes_leWord h)

/-- A full beat of FEEDS is the beat of one group of eight bytes. -/
theorem feed_streamWord {S : List Byte} {q : Nat} (h : q < S.length / 8) :
    Instr.feed 8#4 (streamWord S q) = beatOf ((S.drop (8 * q)).take 8) := by
  rw [beatOf, group_length h]
  rfl

/-- The expansion of FEEDS is beats of at most eight bytes. -/
theorem mem_feedsExpansion {S : List Byte} {i : Instr} (h : i ∈ feedsExpansion S) : ∃ xs, xs.length ≤ 8 ∧ i = beatOf xs := by
  rw [feedsExpansion, List.mem_append] at h
  obtain hgroup | htail := h
  · obtain ⟨q, hq, rfl⟩ := List.mem_map.mp hgroup
    have hq' := List.mem_range.mp hq
    exact ⟨_, Nat.le_of_eq (group_length hq'), feed_streamWord hq'⟩
  · by_cases hrest : S.length % 8 = 0
    · rw [if_pos hrest] at htail
      cases htail
    · rw [if_neg hrest] at htail
      exact ⟨tailBytes S, by rw [tailBytes_length]; omega, List.mem_singleton.mp htail⟩

/-- The full beats carry the whole groups. -/
theorem fedBytes_groups (S : List Byte) {q : Nat} (hq : q ≤ S.length / 8) :
    (((List.range q).map (fun i => Instr.feed 8#4 (streamWord S i))).map encode).flatMap fedBytes = S.take (8 * q) := by
  induction q with
  | zero => rfl
  | succ q ih =>
    rw [List.range_succ, List.map_append, List.map_append, List.flatMap_append, ih (by omega), take_succ_group]
    have hgroup : fedBytes (encode (.feed 8#4 (streamWord S q))) = (S.drop (8 * q)).take 8 := by
      rw [feed_streamWord hq, fedBytes_beatOf (Nat.le_of_eq (group_length hq))]
    simp [hgroup]

theorem fedBytes_feedsExpansion (S : List Byte) : ((feedsExpansion S).map encode).flatMap fedBytes = S := by
  have htail : ((if S.length % 8 = 0 then [] else [beatOf (tailBytes S)]).map encode).flatMap fedBytes = tailBytes S := by
    by_cases hrest : S.length % 8 = 0
    · rw [if_pos hrest, List.eq_nil_of_length_eq_zero ((tailBytes_length S).trans hrest)]
      rfl
    · have hlen : (tailBytes S).length ≤ 8 := by rw [tailBytes_length]; omega
      simp [hrest, fedBytes_beatOf hlen]
  rw [feedsExpansion, List.map_append, List.flatMap_append, fedBytes_groups S (Nat.le_refl _), htail]
  exact List.take_append_drop _ S

theorem feedsExpansion_length (S : List Byte) :
    (feedsExpansion S).length = S.length / 8 + (if S.length % 8 = 0 then 0 else 1) := by
  rw [feedsExpansion, List.length_append, List.length_map, List.length_range]
  split <;> rfl

/-- Settles O49: every command of the expansion is the beat of at most eight bytes (`mem_feedsExpansion`), and in order they carry
the sequence (`fedBytes_feedsExpansion`). -/
theorem feedsExpansionCarriesTheBytes : Obligations.FeedsExpansionCarriesTheBytes := by
  refine fun S => ⟨fun i hi => ?_, fedBytes_feedsExpansion S, feedsExpansion_length S, fun i hi => ?_⟩
  · obtain ⟨xs, hxs, rfl⟩ := mem_feedsExpansion hi
    exact wellFormed_beatOf hxs
  · obtain ⟨xs, -, rfl⟩ := mem_feedsExpansion hi
    exact ⟨_, _, rfl⟩

theorem isFeedWord_of_mem_feedsExpansion (S : List Byte) : ∀ cw ∈ (feedsExpansion S).map encode, IsFeedWord cw := by
  intro cw hcw
  obtain ⟨i, hi, rfl⟩ := List.mem_map.mp hcw
  obtain ⟨xs, hxs, rfl⟩ := mem_feedsExpansion hi
  exact ⟨_, _, decodeOfEncodeIsTheCommand _ (wellFormed_beatOf hxs)⟩

theorem hashExpansion_words (k0 k1 : Word) (S : List Byte) :
    (hashExpansion k0 k1 S).map encode = encode (.init k0 k1) :: ((feedsExpansion S).map encode ++ [encode .final]) := by
  rw [hashExpansion, List.map_cons, List.map_append]
  rfl

/-- Settles O43: HASH is INIT, FEED words that carry the bytes, and FINAL: the run is `transactedAll_hash`, and every answer on the
way is OK (`answersOk_hash`). -/
theorem hashPseudoCommandNeverFails : Obligations.HashPseudoCommandNeverFails := by
  intro s k0 k1 S cws
  have hfeeds := isFeedWord_of_mem_feedsExpansion S
  have hwords : cws = encode (.init k0 k1) :: ((feedsExpansion S).map encode ++ [encode .final]) :=
    hashExpansion_words k0 k1 S
  have hrun := transactedAll_hash hfeeds s k0 k1
  rw [fedBytes_feedsExpansion, ← hwords] at hrun
  refine ⟨⟨_, (runSteps_presentAll cws s).trans (congrArg _ hrun), rfl, ?digest, rfl, ?err, rfl⟩,
    fun k hk => runSteps_noMisuse ?ok hk⟩
  case digest => exact finalResult_feedStream_initEngine s.build k0 k1 S s.eng
  case err => exact feedStream_err s.build S (initEngine k0 k1 s.eng)
  case ok =>
    rw [hwords]
    exact answersOk_hash hfeeds s.build s.eng k0 k1

end Sys2Proof.Machine
end
